-- ==== Sys2Proof/Word.lean ====
section
/-! DEFINITION. The word types of the synacor_challenge CORE (spec/00_scope.md R4, R6). -/

namespace Sys2Proof

/-- `Word16` (R6): what a memory cell, a register, a stack entry and the pc hold. -/
abbrev Word := BitVec 16

/-- `Byte` (R6): one unit of console input or output, and of the program image. -/
abbrev Byte := BitVec 8

/-- `RegIndex` (R6): the number of one of the 8 general registers. -/
abbrev RegIx := Fin 8

end Sys2Proof
end

