-- ==== Sys2Proof/Syntax.lean ====
section
/-! DEFINITION. The instructions of the core as data (spec/30_encoding.md R40 to R48): one constructor per row
of the opcode table R43, its operands in the order A, B, C and each in the form the decoder leaves it in. -/

namespace Sys2Proof

/-- The three results of `classify` (R40). -/
inductive OperandClass where
  /-- An operand word 0..32767, which stands for itself. -/
  | literal (v : Word)
  /-- An operand word 32768..32775, which names a register. -/
  | registerRef (i : RegIx)
  /-- An operand word 32776..65535. -/
  | invalid
deriving DecidableEq, Repr

/-- A value-role operand after the decoder has accepted its word (R41): a literal, or a register whose contents
the step reads. An `Invalid` word never becomes one; the decoder rejects it. -/
inductive Src where
  | lit (v : Word)
  | reg (i : RegIx)
deriving DecidableEq, Repr

/-- The 22 instructions (R43). An operand `d : Word` is a destination-role word, which the decoder keeps raw:
the executing instruction classifies it (R42). An operand of type `Src` is value-role. -/
inductive Instr where
  | halt
  | set (d : Word) (v : Src)
  | push (v : Src)
  | pop (d : Word)
  | eq (d : Word) (a b : Src)
  | gt (d : Word) (a b : Src)
  | jmp (v : Src)
  | jt (a v : Src)
  | jf (a v : Src)
  | add (d : Word) (a b : Src)
  | mult (d : Word) (a b : Src)
  | mod (d : Word) (a b : Src)
  | and (d : Word) (a b : Src)
  | or (d : Word) (a b : Src)
  | not (d : Word) (a : Src)
  | rmem (d : Word) (a : Src)
  | wmem (a b : Src)
  | call (v : Src)
  | ret
  | out (a : Src)
  /-- `in` of the table (the word itself is reserved by Lean). -/
  | inp (d : Word)
  | noop
deriving DecidableEq, Repr

end Sys2Proof
end

