-- ==== Sys2Proof/WellFormed.lean ====
section
/-! DEFINITION. Which terms of `Instr` stand for instructions the memory can hold: every literal operand lies in
0..32767 (spec/30_encoding.md R40, `Value15` of R6). A register operand is in range by its type, and a
destination word may be any word: a word that names no register makes an instruction that faults when it
executes (R42), not one that cannot be written. -/

namespace Sys2Proof

/-- A value operand that some operand word encodes: a literal is at most 32767 (R40). -/
def Src.wf : Src → Bool
  | .lit v => decide (v.toNat < 32768)
  | .reg _ => true

/-- Every value operand of the instruction is one that an operand word encodes. -/
def Instr.wf : Instr → Bool
  | .halt => true
  | .set _ v => v.wf
  | .push v => v.wf
  | .pop _ => true
  | .eq _ a b => a.wf && b.wf
  | .gt _ a b => a.wf && b.wf
  | .jmp v => v.wf
  | .jt a v => a.wf && v.wf
  | .jf a v => a.wf && v.wf
  | .add _ a b => a.wf && b.wf
  | .mult _ a b => a.wf && b.wf
  | .mod _ a b => a.wf && b.wf
  | .and _ a b => a.wf && b.wf
  | .or _ a b => a.wf && b.wf
  | .not _ a => a.wf
  | .rmem _ a => a.wf
  | .wmem a b => a.wf && b.wf
  | .call v => v.wf
  | .ret => true
  | .out a => a.wf
  | .inp _ => true
  | .noop => true

end Sys2Proof
end

