-- ==== Sys2Proof/Decode.lean ====
section
/-! DEFINITION. Decoding and encoding (spec/30_encoding.md R40 to R50, spec/40_execution_cycle.md R53) and the byte
order of the program image (spec/20_memory.md R29). The decoder is total on any list of words, and so on any
list of bytes; it rejects by name. -/

namespace Sys2Proof

/-- Why the decoder rejects what it reads. -/
inductive DecodeError where
  /-- The words end before the instruction does (R49). -/
  | outOfWords
  /-- The opcode word is in 22..65535 (R46). -/
  | badOpcode
  /-- A value-role operand word is in 32776..65535 (R41). -/
  | badOperand
deriving DecidableEq, Repr

/-- `classify(w)` (R40). -/
def classify (w : Word) : OperandClass :=
  if w.toNat < 32768 then .literal w
  else if h : w.toNat < 32776 then .registerRef ⟨w.toNat - 32768, by omega⟩
  else .invalid

/-- The decoder's half of `Val(w)` (R41): which literal or register a value-role word stands for, and nothing
for an `Invalid` word. -/
def srcOf? (w : Word) : Option Src :=
  match classify w with
  | .literal v => some (.lit v)
  | .registerRef i => some (.reg i)
  | .invalid => none

/-- Read one destination-role word and keep it raw (R53). -/
def takeDest : List Word → Except DecodeError (Word × List Word)
  | [] => .error .outOfWords
  | w :: ws => .ok (w, ws)

/-- Read one value-role word and resolve it at once (R53): the range fault of this word comes before its
`BadOperand`, and both before anything about the next word. -/
def takeValue : List Word → Except DecodeError (Src × List Word)
  | [] => .error .outOfWords
  | w :: ws =>
    match srcOf? w with
    | some v => .ok (v, ws)
    | none => .error .badOperand

/-- Operand roles `dest` (R43). -/
def rolesD (mk : Word → Instr) (ws : List Word) : Except DecodeError (Instr × List Word) :=
  match takeDest ws with
  | .error e => .error e
  | .ok (d, ws₁) => .ok (mk d, ws₁)

/-- Operand roles `value` (R43). -/
def rolesV (mk : Src → Instr) (ws : List Word) : Except DecodeError (Instr × List Word) :=
  match takeValue ws with
  | .error e => .error e
  | .ok (a, ws₁) => .ok (mk a, ws₁)

/-- Operand roles `value, value` (R43). -/
def rolesVV (mk : Src → Src → Instr) (ws : List Word) : Except DecodeError (Instr × List Word) :=
  match takeValue ws with
  | .error e => .error e
  | .ok (a, ws₁) => rolesV (mk a) ws₁

/-- Operand roles `dest, value` (R43). -/
def rolesDV (mk : Word → Src → Instr) (ws : List Word) : Except DecodeError (Instr × List Word) :=
  match takeDest ws with
  | .error e => .error e
  | .ok (d, ws₁) => rolesV (mk d) ws₁

/-- Operand roles `dest, value, value` (R43). -/
def rolesDVV (mk : Word → Src → Src → Instr) (ws : List Word) : Except DecodeError (Instr × List Word) :=
  match takeDest ws with
  | .error e => .error e
  | .ok (d, ws₁) => rolesVV (mk d) ws₁

/-- Read one instruction from the head of a list of words and give back the words after it: the opcode word is
compared as a whole number (R45), it fixes the roles that follow (R48), and nothing is read after an illegal one
(R46). -/
def decode : List Word → Except DecodeError (Instr × List Word)
  | [] => .error .outOfWords
  | op :: ws =>
    match op.toNat with
    | 0 => .ok (.halt, ws)
    | 1 => rolesDV .set ws
    | 2 => rolesV .push ws
    | 3 => rolesD .pop ws
    | 4 => rolesDVV .eq ws
    | 5 => rolesDVV .gt ws
    | 6 => rolesV .jmp ws
    | 7 => rolesVV .jt ws
    | 8 => rolesVV .jf ws
    | 9 => rolesDVV .add ws
    | 10 => rolesDVV .mult ws
    | 11 => rolesDVV .mod ws
    | 12 => rolesDVV .and ws
    | 13 => rolesDVV .or ws
    | 14 => rolesDV .not ws
    | 15 => rolesDV .rmem ws
    | 16 => rolesVV .wmem ws
    | 17 => rolesV .call ws
    | 18 => .ok (.ret, ws)
    | 19 => rolesV .out ws
    | 20 => rolesD .inp ws
    | 21 => .ok (.noop, ws)
    | _ => .error .badOpcode

/-- The operand word that stands for a value operand (R40). -/
def Src.word : Src → Word
  | .lit v => v
  | .reg i => BitVec.ofNat 16 (32768 + i.val)

/-- The words of an instruction, from the table R43 and the formats R44. -/
def encode : Instr → List Word
  | .halt => [0]
  | .set d v => [1, d, v.word]
  | .push v => [2, v.word]
  | .pop d => [3, d]
  | .eq d a b => [4, d, a.word, b.word]
  | .gt d a b => [5, d, a.word, b.word]
  | .jmp v => [6, v.word]
  | .jt a v => [7, a.word, v.word]
  | .jf a v => [8, a.word, v.word]
  | .add d a b => [9, d, a.word, b.word]
  | .mult d a b => [10, d, a.word, b.word]
  | .mod d a b => [11, d, a.word, b.word]
  | .and d a b => [12, d, a.word, b.word]
  | .or d a b => [13, d, a.word, b.word]
  | .not d a => [14, d, a.word]
  | .rmem d a => [15, d, a.word]
  | .wmem a b => [16, a.word, b.word]
  | .call v => [17, v.word]
  | .ret => [18]
  | .out a => [19, a.word]
  | .inp d => [20, d]
  | .noop => [21]

/-- The `len` column of R43: the instruction's length in words, the opcode word included. -/
def Instr.len : Instr → Nat
  | .halt | .ret | .noop => 1
  | .push _ | .pop _ | .jmp _ | .call _ | .out _ | .inp _ => 2
  | .set _ _ | .jt _ _ | .jf _ _ | .not _ _ | .rmem _ _ | .wmem _ _ => 3
  | .eq _ _ _ | .gt _ _ _ | .add _ _ _ | .mult _ _ _ | .mod _ _ _ | .and _ _ _ | .or _ _ _ => 4

/-- The destination-role word of an instruction that has one (R42); the rest have none. -/
def Instr.destWord? : Instr → Option Word
  | .set d _ | .pop d | .eq d _ _ | .gt d _ _ | .add d _ _ | .mult d _ _ | .mod d _ _ | .and d _ _ | .or d _ _
  | .not d _ | .rmem d _ | .inp d => some d
  | .halt | .push _ | .jmp _ | .jt _ _ | .jf _ _ | .wmem _ _ | .call _ | .ret | .out _ | .noop => none

/-- One word from its two image bytes, the low byte first: `lo + 256 * hi` (R29). -/
def wordOfBytes (lo hi : Byte) : Word := BitVec.ofNat 16 (lo.toNat + 256 * hi.toNat)

/-- The byte of a word that stands first in the image: bits [7:0] (R29). -/
def lowByte (w : Word) : Byte := BitVec.ofNat 8 (w.toNat % 256)

/-- The byte of a word that stands second in the image: bits [15:8] (R29). -/
def highByte (w : Word) : Byte := BitVec.ofNat 8 (w.toNat / 256)

/-- The words a list of image bytes holds; a last half word is no word. -/
def wordsOfBytes : List Byte → List Word
  | lo :: hi :: rest => wordOfBytes lo hi :: wordsOfBytes rest
  | _ => []

/-- The image bytes of a list of words (R50). -/
def bytesOfWords : List Word → List Byte
  | [] => []
  | w :: ws => lowByte w :: highByte w :: bytesOfWords ws

/-- The decoder on image bytes. -/
def decodeBytes (bs : List Byte) : Except DecodeError (Instr × List Word) := decode (wordsOfBytes bs)

/-- The image bytes of an instruction (R50). -/
def encodeBytes (i : Instr) : List Byte := bytesOfWords (encode i)

/-- The 8 image bytes of the longest instruction whose low `nbits` bits are those of `w` and whose other bits are 0,
bit 0 the least significant bit of the first word. -/
def tableBytes (nbits w : Nat) : List Byte :=
  (List.range 8).map fun k => BitVec.ofNat 8 ((w % 2 ^ nbits) >>> (8 * k))

/-- The instruction the decoder reads from an instruction whose bits are `w`, as spec/opcode_table.json numbers
them. -/
def decodeTableWord (nbits w : Nat) : Option Instr :=
  match decodeBytes (tableBytes nbits w) with
  | .ok (i, _) => some i
  | .error _ => none

end Sys2Proof
end

