-- ==== Sys2Proof/Config.lean ====
section
/-! DEFINITION. The two parameters that spec/00_scope.md R4 leaves OPEN, at the values this hardware takes.
Every other parameter of R4 is fixed and stands in the types (16-bit words, 8 registers) or as the number the
rules themselves write (32768, 32767, 32776, 0xFF). The spec leaves no value free, so there is no opaque constant. -/

namespace Sys2Proof

/-- `RESET_REG` (R4, R22, decision D1): one word per register, all zero.
DESIGN CHOICE (the spec's D1, its source is silent), unsafe: notes/assumptions/2.md. -/
def Config.resetRegs : Vector Word 8 := Vector.replicate 8 0

/-- `STACK_CAPACITY` (R4, R102, decision D12): `none` is the unbounded stack this hardware takes.
DESIGN CHOICE (the spec's D12, its source is silent), unsafe: notes/assumptions/3.md. -/
def Config.stackCapacity : Option Nat := none

end Sys2Proof
end

