-- ==== Sys2Proof/Machine/State.lean ====
section
/-! DEFINITION. The whole state of the core (spec/10_state.md R9) as plain data, the reasons a step can be missing, and
the state after reset (R22). -/

namespace Sys2Proof.Machine

/-- `run_state` (R16). -/
inductive RunState where
  | running
  | halted
  | faulted
deriving DecidableEq, Repr

/-- The fault kinds of the core (spec/60_exceptions.md R88). -/
inductive FaultKind where
  | decodeFault
  | addressFault
  | stackFault
  | arithmeticFault
deriving DecidableEq, Repr

/-- The fault causes of the core (R88), in the order of their ids 1 to 7. -/
inductive Cause where
  /-- A memory address used by the step exceeds 32767 (R92). -/
  | memRange
  /-- The opcode word is in 22..65535 (R89). -/
  | badOpcode
  /-- A value-role operand word is in 32776..65535 (R90). -/
  | badOperand
  /-- A destination-role operand word is not in 32768..32775 (R91). -/
  | destNotRegister
  /-- `pop` or `ret` with the stack empty (R93). -/
  | empty
  /-- `mod` with effective divisor 0 (R94). -/
  | modZero
  /-- A push onto a full stack, under a finite capacity only (R102). -/
  | overflow
deriving DecidableEq, Repr

/-- The fault record (R17): kind, cause, the pc at the start of the faulting step, and the word at that pc, absent
when that very word could not be fetched. -/
structure FaultRecord where
  kind : FaultKind
  cause : Cause
  pc : Word
  op : Option Word
deriving DecidableEq, Repr

/-- The memory (R15, R25) as cells in rising order of address, none of them zero. Word `a` of the spec's array is the
two cells at `2 * a` (bits [7:0]) and `2 * a + 1` (bits [15:8]), the image's own layout (R29), and a cell that is
not listed is 0 (R22). DESIGN CHOICE, safe: no instruction can see a byte (notes/assumptions/1.md). -/
abbrev Memory := List Host.Cell

/-- The state of the core (R9): exactly this tuple. -/
structure State where
  /-- The general registers `x[0..7]` (R10). -/
  x : Vector Word 8
  /-- The program counter (R12). -/
  pc : Word
  /-- The stack, top at the end (R14). -/
  stack : List Word
  /-- The memory (R15). -/
  mem : Memory
  /-- Whether the core runs (R16). -/
  runState : RunState
  /-- The fault record (R17), absent unless the core is `Faulted`. -/
  fault : Option FaultRecord
  /-- The input buffer, head first (R18). -/
  inbuf : List Byte
  /-- The bytes emitted so far, oldest first (R19). -/
  outlog : List Byte
deriving DecidableEq, Repr

/-- Why a state has no step (spec/40_execution_cycle.md R56). The core's own faults are none of these: they are next
states in which `runState` is `faulted` (R95). -/
inductive Fault where
  /-- Answered by the meaning of `in` when its destination is a register and `inbuf` is empty: the core is stalled,
  `Running` and unchanged, until the host refills `inbuf` (R82). Safe: nothing follows from a step that is missing. -/
  | stalledOnInput
  /-- Answered by `step` in `Halted`, which is terminal (R16). Safe. -/
  | alreadyHalted
  /-- Answered by `step` in `Faulted`, which is terminal (R16, R97). Safe. -/
  | alreadyFaulted
deriving DecidableEq, Repr

/-- Why an instruction has no meaning in the model. No arm of `exec` answers this: all 22 are modelled. -/
inductive Refusal where
  /-- Would be answered by an arm of `exec` for an instruction without a meaning. Safe. -/
  | notModelled (mnemonic : String)
deriving DecidableEq, Repr

/-- The state after reset and load (R22, R103): the registers hold `regs` and the memory `mem`; everything else is at
the value of R22's table. -/
def State.afterReset (regs : Vector Word 8) (mem : Memory) : State where
  x := regs
  pc := 0#16
  stack := []
  mem := mem
  runState := .running
  fault := none
  inbuf := []
  outlog := []

/-- The machine right after reset with the empty image, which R104 calls legal: memory all zero. -/
def State.reset : State := State.afterReset Config.resetRegs []

end Sys2Proof.Machine
end

