-- ==== Sys2Proof/Machine/Ops.lean ====
section
/-! DEFINITION. The named operations over memory, registers, the stack and the streams (spec/00_scope.md R7), entering
`Faulted` (spec/60_exceptions.md R95), and fetching an instruction (spec/40_execution_cycle.md R53). -/

namespace Sys2Proof.Machine

/-! ### Memory cells -/

/-- The byte of a cell: the listed one, or 0 (R22) where none is listed. -/
def Memory.readByte : Memory → Nat → Byte
  | [], _ => 0#8
  | (a, b) :: rest, k => if a = k then b else Memory.readByte rest k

/-- Store one byte and keep the list canonical: a zero byte is not listed. -/
def Memory.writeByte : Memory → Nat → Byte → Memory
  | [], k, v => if v = 0#8 then [] else [(k, v)]
  | (a, b) :: rest, k, v =>
    if k < a then (if v = 0#8 then (a, b) :: rest else (k, v) :: (a, b) :: rest)
    else if k = a then (if v = 0#8 then rest else (k, v) :: rest)
    else (a, b) :: Memory.writeByte rest k v

/-- Every address is at least `lo` and rises from cell to cell, lies below 65536 (32768 words of two cells), and no
listed byte is 0. -/
def Memory.wfFrom : Nat → Memory → Bool
  | _, [] => true
  | lo, (a, b) :: rest => decide (lo ≤ a) && decide (a < 65536) && decide (b ≠ 0#8) && Memory.wfFrom (a + 1) rest

/-- The canonical form of a memory: equal memories are equal lists. -/
def Memory.wf (m : Memory) : Bool := Memory.wfFrom 0 m

/-- Word `a` of the array (R15), bits [7:0] from the lower cell (R29). -/
def Memory.readWord (m : Memory) (a : Nat) : Word :=
  wordOfBytes (m.readByte (2 * a)) (m.readByte (2 * a + 1))

/-- Set word `a` of the array (R27). -/
def Memory.writeWord (m : Memory) (a : Nat) (v : Word) : Memory :=
  (m.writeByte (2 * a) (lowByte v)).writeByte (2 * a + 1) (highByte v)

/-- At most `n` words from address `p` on, fewer where the memory ends at 32767 (R49: no wrap). -/
def Memory.readWords (m : Memory) (p : Nat) : Nat → List Word
  | 0 => []
  | n + 1 => if p < 32768 then m.readWord p :: Memory.readWords m (p + 1) n else []

/-- Store words from address `p` on, as far as the memory reaches. -/
def Memory.writeWords (m : Memory) (p : Nat) : List Word → Memory
  | [] => m
  | w :: ws => if p < 32768 then Memory.writeWords (m.writeWord p w) (p + 1) ws else m

/-- The canonical memory that holds the image bytes from cell `k` on (R104). -/
def Memory.ofImage (k : Nat) : List Byte → Memory
  | [] => []
  | b :: bs => if b = 0#8 then Memory.ofImage (k + 1) bs else (k, b) :: Memory.ofImage (k + 1) bs

/-! ### Registers, the pc, the memory primitives -/

/-- `x[i]` (R10). -/
def State.reg (s : State) (i : RegIx) : Word := s.x[i.val]

/-- `x[i] <- v` (R10): verbatim. -/
def State.setReg (s : State) (i : RegIx) (v : Word) : State := { s with x := s.x.set i.val v }

/-- `pc <- t` (R12): never reduced. -/
def State.setPc (s : State) (t : Word) : State := { s with pc := t }

/-- Sequential advance `pc <- p + n` (R55). A step runs an instruction only at a pc of at most 32767, where the sum
does not overflow 16 bits (R12). -/
def State.advance (s : State) (n : Nat) : State := s.setPc (s.pc + BitVec.ofNat 16 n)

/-- `MemRead(addr, 1)` (R26); nothing above 32767, where the caller raises `MemRange`. -/
def State.memRead? (s : State) (addr : Word) : Option Word :=
  if addr.toNat < 32768 then some (s.mem.readWord addr.toNat) else none

/-- `MemWrite(addr, 1, v)` (R27); nothing above 32767, where the caller raises `MemRange`. -/
def State.memWrite? (s : State) (addr v : Word) : Option State :=
  if addr.toNat < 32768 then some { s with mem := s.mem.writeWord addr.toNat v } else none

/-! ### The stack and the streams -/

/-- `Push(v)` (R14) under a capacity: nothing when the stack is full, where the caller raises `Overflow` (R102). -/
def State.push? (cap : Option Nat) (v : Word) (s : State) : Option State :=
  match cap with
  | none => some { s with stack := s.stack ++ [v] }
  | some n => if s.stack.length < n then some { s with stack := s.stack ++ [v] } else none

/-- `Pop()` (R14): the top entry and the state without it; nothing when the stack is empty, where the caller raises
`Empty`. -/
def State.pop? (s : State) : Option (Word × State) :=
  match s.stack.getLast? with
  | some v => some (v, { s with stack := s.stack.dropLast })
  | none => none

/-- `OutByte(b)` (R83). -/
def State.outByte (b : Byte) (s : State) : State := { s with outlog := s.outlog ++ [b] }

/-- `InByte()` (R82): the head of the input buffer and the state without it; nothing when the buffer is empty, where
the step does not exist. -/
def State.inByte? (s : State) : Option (Byte × State) :=
  match s.inbuf with
  | b :: bs => some (b, { s with inbuf := bs })
  | [] => none

/-! ### Entering `Faulted` -/

/-- The kind each cause is filed under (R88). -/
def Cause.kind : Cause → FaultKind
  | .memRange => .addressFault
  | .badOpcode => .decodeFault
  | .badOperand => .decodeFault
  | .destNotRegister => .addressFault
  | .empty => .stackFault
  | .modZero => .arithmeticFault
  | .overflow => .stackFault

/-- The id column of R88; it means identity only (D14). -/
def Cause.id : Cause → Nat
  | .memRange => 1
  | .badOpcode => 2
  | .badOperand => 3
  | .destNotRegister => 4
  | .empty => 5
  | .modZero => 6
  | .overflow => 7

/-- `raise K(c)` (R95): the core becomes `Faulted` with the record of this step, and nothing else changes. There is no
return from it (R97). -/
def raise (c : Cause) (s : State) : State :=
  { s with runState := .faulted, fault := some { kind := c.kind, cause := c, pc := s.pc, op := s.memRead? s.pc } }

/-! ### Fetch and decode -/

/-- The words the decoder may read at the pc: four, or fewer where the memory ends. Reading has no effect (R31), so
offering a word the instruction turns out not to have is not an access of the step (R28). -/
def State.fetchWindow (s : State) : List Word := s.mem.readWords s.pc.toNat 4

/-- The fetch and decode phase of a step (R53), from the memory as it is now (R36, R59). -/
def State.decodeAt (s : State) : Except DecodeError (Instr × List Word) := decode s.fetchWindow

/-- The fault a decode failure raises (R53): words end only where the memory does. -/
def causeOfDecodeError : DecodeError → Cause
  | .outOfWords => .memRange
  | .badOpcode => .badOpcode
  | .badOperand => .badOperand

end Sys2Proof.Machine
end

