-- ==== Sys2Proof/Machine/Operands.lean ====
section
/-! DEFINITION. The two operand roles as the execute phase meets them (spec/30_encoding.md R41, R42). The core has no
other operand form: no offsets, no indexing, no autoincrement (spec/45_memory_access.md, spec/43_jumps.md). -/

namespace Sys2Proof.Machine

/-- The state's half of `Val(w)` (R41): a literal is itself; a register gives its 16-bit contents as they are, never
resolved a second time. -/
def State.val (s : State) : Src → Word
  | .lit v => v
  | .reg i => s.reg i

/-- `Dest(w)` (R42): the register a destination word names; nothing for any other word, where the instruction raises
`DestNotRegister`. -/
def dest? (w : Word) : Option RegIx :=
  match classify w with
  | .registerRef i => some i
  | .literal _ => none
  | .invalid => none

/-- The first line of the execute phase of an instruction with a destination (R54): classify the destination word,
before every check of the instruction's own. -/
def withDest (d : Word) (s : State) (body : RegIx → Host.Outcome State Fault Refusal) : Host.Outcome State Fault Refusal :=
  match dest? d with
  | some i => body i
  | none => .next (raise .destNotRegister s)

/-- The common end of the instructions that compute a word for their destination: write it, then advance past the
instruction's `n` words (R54, R55). -/
def writeDest (d : Word) (n : Nat) (v : Word) (s : State) : Host.Outcome State Fault Refusal :=
  withDest d s fun i => .next ((s.setReg i v).advance n)

end Sys2Proof.Machine
end

