-- ==== Sys2Proof/Machine/Alu.lean ====
section
/-! DEFINITION. `add`, `mult`, `mod`, `and`, `or`, `not` (spec/44_alu.md R68 to R74): `add` and `mult` are the natural sum
and product reduced modulo 32768; the other four act on the full 16-bit values and are stored unreduced. -/

namespace Sys2Proof.Machine

/-- `(a + b) mod 32768` (R69). -/
def addWord (a b : Word) : Word := BitVec.ofNat 16 ((a.toNat + b.toNat) % 32768)

/-- `(a * b) mod 32768` (R70). -/
def multWord (a b : Word) : Word := BitVec.ofNat 16 (a.toNat * b.toNat % 32768)

/-- `a mod b` for a divisor that is not 0 (R71). -/
def modWord (a b : Word) : Word := BitVec.ofNat 16 (a.toNat % b.toNat)

/-- `a AND b` (R72). -/
def andWord (a b : Word) : Word := a &&& b

/-- `a OR b` (R73). -/
def orWord (a b : Word) : Word := a ||| b

/-- `a XOR 0x7FFF` (R74): bit 15 unchanged. -/
def notWord (a : Word) : Word := a ^^^ 0x7FFF#16

/-- `add d a b` (R69). -/
def execAdd (d : Word) (a b : Src) (s : State) : Host.Outcome State Fault Refusal :=
  writeDest d 4 (addWord (s.val a) (s.val b)) s

/-- `mult d a b` (R70). -/
def execMult (d : Word) (a b : Src) (s : State) : Host.Outcome State Fault Refusal :=
  writeDest d 4 (multWord (s.val a) (s.val b)) s

/-- `mod d a b` (R71): the destination check first, then the zero divisor. -/
def execMod (d : Word) (a b : Src) (s : State) : Host.Outcome State Fault Refusal :=
  withDest d s fun i =>
    if (s.val b).toNat = 0 then .next (raise .modZero s)
    else .next ((s.setReg i (modWord (s.val a) (s.val b))).advance 4)

/-- `and d a b` (R72). -/
def execAnd (d : Word) (a b : Src) (s : State) : Host.Outcome State Fault Refusal :=
  writeDest d 4 (andWord (s.val a) (s.val b)) s

/-- `or d a b` (R73). -/
def execOr (d : Word) (a b : Src) (s : State) : Host.Outcome State Fault Refusal :=
  writeDest d 4 (orWord (s.val a) (s.val b)) s

/-- `not d a` (R74). -/
def execNot (d : Word) (a : Src) (s : State) : Host.Outcome State Fault Refusal :=
  writeDest d 3 (notWord (s.val a)) s

end Sys2Proof.Machine
end

