-- ==== Sys2Proof/Machine/Flags.lean ====
section
/-! DEFINITION. The core has no flags, condition codes or predicate registers (spec/10_state.md R20), so there is no flag
computation. What stands in their place: the 1 or 0 a comparison writes into a general register, and the test
against zero a conditional jump makes of an operand's value. -/

namespace Sys2Proof.Machine

/-- The result word of a comparison: 1 or 0 (R20, R63, R64). -/
def truthWord (b : Bool) : Word := if b then 1#16 else 0#16

/-- The condition of `jt` and, negated, of `jf`: the test is on all 16 bits (R66, R67). -/
def isNonzero (w : Word) : Bool := decide (w.toNat ≠ 0)

end Sys2Proof.Machine
end

