-- ==== Sys2Proof/Machine/Compare.lean ====
section
/-! DEFINITION. `eq`, `gt` (spec/42_compare.md R63, R64): unsigned, on all 16 bits of the effective values. -/

namespace Sys2Proof.Machine

/-- `eq d a b` (R63). -/
def execEq (d : Word) (a b : Src) (s : State) : Host.Outcome State Fault Refusal :=
  writeDest d 4 (truthWord (decide ((s.val a).toNat = (s.val b).toNat))) s

/-- `gt d a b` (R64): strict. -/
def execGt (d : Word) (a b : Src) (s : State) : Host.Outcome State Fault Refusal :=
  writeDest d 4 (truthWord (decide ((s.val b).toNat < (s.val a).toNat))) s

end Sys2Proof.Machine
end

