-- ==== Sys2Proof/Machine/Io.lean ====
section
/-! DEFINITION. `out`, `in` (spec/47_io.md R80 to R83). -/

namespace Sys2Proof.Machine

/-- `out a` (R80): the low 8 bits as one byte. -/
def execOut (a : Src) (s : State) : Host.Outcome State Fault Refusal :=
  .next ((s.outByte ((s.val a).setWidth 8)).advance 2)

/-- `in d` (R81): the destination check first; then, while the buffer is empty, the step does not exist (R82); else
the head byte, zero-extended. -/
def execInp (d : Word) (s : State) : Host.Outcome State Fault Refusal :=
  withDest d s fun i =>
    match s.inByte? with
    | some (b, t) => .next ((t.setReg i (b.setWidth 16)).advance 2)
    | none => .fault .stalledOnInput

end Sys2Proof.Machine
end

