-- ==== Sys2Proof/Machine/Jump.lean ====
section
/-! DEFINITION. `jmp`, `jt`, `jf` (spec/43_jumps.md R65 to R67). A target above 32767 is accepted here and faults at the
next fetch (spec/10_state.md R12). -/

namespace Sys2Proof.Machine

/-- `jmp v` (R65). -/
def execJmp (v : Src) (s : State) : Host.Outcome State Fault Refusal :=
  .next (s.setPc (s.val v))

/-- `jt a v` (R66). -/
def execJt (a v : Src) (s : State) : Host.Outcome State Fault Refusal :=
  .next (if isNonzero (s.val a) then s.setPc (s.val v) else s.advance 3)

/-- `jf a v` (R67). -/
def execJf (a v : Src) (s : State) : Host.Outcome State Fault Refusal :=
  .next (if isNonzero (s.val a) then s.advance 3 else s.setPc (s.val v))

end Sys2Proof.Machine
end

