-- ==== Sys2Proof/Machine/MemAccess.lean ====
section
/-! DEFINITION. `rmem`, `wmem` (spec/45_memory_access.md R75, R76): one word at the address that a value operand gives. -/

namespace Sys2Proof.Machine

/-- `rmem d a` (R75): one level, the word raw; the destination check first, then the address. -/
def execRmem (d : Word) (a : Src) (s : State) : Host.Outcome State Fault Refusal :=
  withDest d s fun i =>
    match s.memRead? (s.val a) with
    | some v => .next ((s.setReg i v).advance 3)
    | none => .next (raise .memRange s)

/-- `wmem a b` (R76): verbatim; a literal address is legal. -/
def execWmem (a b : Src) (s : State) : Host.Outcome State Fault Refusal :=
  match s.memWrite? (s.val a) (s.val b) with
  | some t => .next (t.advance 3)
  | none => .next (raise .memRange s)

end Sys2Proof.Machine
end

