-- ==== Sys2Proof/Machine/Move.lean ====
section
/-! DEFINITION. `set`, `push`, `pop` (spec/41_set_push_pop.md R60 to R62). -/

namespace Sys2Proof.Machine

/-- `set d v` (R60): verbatim, 16 bits. -/
def execSet (d : Word) (v : Src) (s : State) : Host.Outcome State Fault Refusal :=
  writeDest d 3 (s.val v) s

/-- `push v` (R61) under a stack capacity (R102). -/
def execPushUnder (cap : Option Nat) (v : Src) (s : State) : Host.Outcome State Fault Refusal :=
  match s.push? cap (s.val v) with
  | some t => .next (t.advance 2)
  | none => .next (raise .overflow s)

/-- `push v` (R61). -/
def execPush (v : Src) (s : State) : Host.Outcome State Fault Refusal :=
  execPushUnder Config.stackCapacity v s

/-- `pop d` (R62): the destination check first, then the empty stack. -/
def execPop (d : Word) (s : State) : Host.Outcome State Fault Refusal :=
  withDest d s fun i =>
    match s.pop? with
    | some (v, t) => .next ((t.setReg i v).advance 2)
    | none => .next (raise .empty s)

end Sys2Proof.Machine
end

