-- ==== Sys2Proof/Machine/Subroutine.lean ====
section
/-! DEFINITION. `call`, `ret` (spec/46_call_ret.md R77, R78): the return address lives on the one stack. -/

namespace Sys2Proof.Machine

/-- `call v` (R77) under a stack capacity (R102): the target is resolved before the push, and the return address
`p + 2` is not reduced. -/
def execCallUnder (cap : Option Nat) (v : Src) (s : State) : Host.Outcome State Fault Refusal :=
  match s.push? cap (s.pc + 2#16) with
  | some t => .next (t.setPc (s.val v))
  | none => .next (raise .overflow s)

/-- `call v` (R77). -/
def execCall (v : Src) (s : State) : Host.Outcome State Fault Refusal :=
  execCallUnder Config.stackCapacity v s

/-- `ret` (R78): an empty stack faults; the popped word is the new pc, verbatim. -/
def execRet (s : State) : Host.Outcome State Fault Refusal :=
  match s.pop? with
  | some (v, t) => .next (t.setPc v)
  | none => .next (raise .empty s)

end Sys2Proof.Machine
end

