-- ==== Sys2Proof/Machine/System.lean ====
section
/-! DEFINITION. `halt`, `noop` (spec/48_halt_noop.md R85, R86). -/

namespace Sys2Proof.Machine

/-- `halt` (R85): the pc stays at the `halt`. -/
def execHalt (s : State) : Host.Outcome State Fault Refusal :=
  .next { s with runState := .halted }

/-- `noop` (R86). -/
def execNoop (s : State) : Host.Outcome State Fault Refusal :=
  .next (s.advance 1)

end Sys2Proof.Machine
end

