-- ==== Sys2Proof/Machine/Step.lean ====
section
/-! DEFINITION. One step of the core (spec/40_execution_cycle.md R53 to R57). -/

namespace Sys2Proof.Machine

/-- One step: only a `Running` core takes one (R16, R56); fetch and decode from the current memory (R53), then execute
(R54), or enter `Faulted` with the decode phase's fault (R95). -/
def step (s : State) : Host.Outcome State Fault Refusal :=
  match s.runState with
  | .halted => .fault .alreadyHalted
  | .faulted => .fault .alreadyFaulted
  | .running =>
    match s.decodeAt with
    | .ok (i, _) => exec i s
    | .error e => .next (raise (causeOfDecodeError e) s)

/-- `s` with the instruction whose bits are `w` stored at the pc, where `step` fetches, in four words as far as the
memory reaches; nothing else changes. It stands for the host's load (notes/assumptions/12.md). -/
def State.withFetchWord (s : State) (nbits w : Nat) : State :=
  { s with mem := s.mem.writeWords s.pc.toNat (wordsOfBytes (tableBytes nbits w)) }

end Sys2Proof.Machine
end

