-- ==== Sys2Proof/Machine/HostSide.lean ====
section
/-! DEFINITION. The host's moves on the core (spec/70_reset_and_hazards.md R103, R104, R110): reset and load, refill,
read the status. Taking output is reading `State.outlog`. The host has no other move, and none of these is a step.
Last, the run that the core's steps and the host's refills make together, and its fates (R106). -/

namespace Sys2Proof.Machine

/-- Reset with a program image (R103, R104). The host refuses an image of an odd number of bytes or of more than
65536 (R104, D13). -/
def State.load (image : List Byte) : Option State :=
  if image.length % 2 = 0 ∧ image.length ≤ 65536 then
    some (State.afterReset Config.resetRegs (Memory.ofImage 0 image))
  else none

/-- Stalled (R82): the core is `Running` and the instruction at the pc waits for a byte. -/
def State.stalled (s : State) : Bool :=
  match step s with
  | .fault .stalledOnInput => true
  | .fault .alreadyHalted => false
  | .fault .alreadyFaulted => false
  | .next _ => false
  | .refused _ => false

/-- The refill (R82, R110): one line, a non-empty sequence of bytes, and only while the core is stalled. -/
def State.refill (line : List Byte) (s : State) : Option State :=
  if s.stalled ∧ line ≠ [] then some { s with inbuf := s.inbuf ++ line } else none

/-- What the host can read of a core at any time, beside `outlog` (R24, R110). -/
def State.status (s : State) : RunState × Option FaultRecord := (s.runState, s.fault)

/-! ### A run of the core with its host -/

/-- The next move of a run (R106), where the host has `lines` left to supply: the core's step where there is one; the
refill with the next line where the core is stalled (R82). Nothing moves a core that is `Halted` or `Faulted`, nor a
stalled one when the supply has ended or gives no bytes. A refill takes one line off the supply. -/
def State.move (lines : List (List Byte)) (s : State) : Option (List (List Byte) × State) :=
  match step s with
  | .next t => some (lines, t)
  | .fault .stalledOnInput =>
    match lines with
    | [] => none
    | line :: rest => (s.refill line).map fun t => (rest, t)
  | .fault .alreadyHalted => none
  | .fault .alreadyFaulted => none
  | .refused _ => none

/-- The run from `s` under a host that supplies `lines`, one each time the core stalls, after `n` moves or as many as
there are: the lines not yet asked for and the state reached. DESIGN CHOICE, unsafe for claims that a run ends: the list
is finite, where the spec sets no bound on a run's refills, so a host that refills for ever is covered by its finite
prefixes only (notes/assumptions/15.md). -/
def State.runHost : Nat → List (List Byte) → State → List (List Byte) × State
  | 0, lines, s => (lines, s)
  | n + 1, lines, s =>
    match s.move lines with
    | some (rest, t) => State.runHost n rest t
    | none => (lines, s)

/-- The run of a program: reset and load of the image (R104), then the core and the host's `lines`. -/
def State.runImage (image : List Byte) (lines : List (List Byte)) (n : Nat) : Option (List (List Byte) × State) :=
  (State.load image).map fun s => s.runHost n lines

/-- How a run stands (R106): three ways to have no further move, and `running` while there is one. -/
inductive Fate where
  | halted
  | faulted
  | stalled
  | running
deriving DecidableEq, Repr

/-- The fate of a run that has reached `s` with `lines` left to supply. A `running` run at every length is the fourth
fate. `stalled` is for ever under this finite supply (notes/assumptions/15.md). -/
def State.fate (lines : List (List Byte)) (s : State) : Fate :=
  match s.runState with
  | .halted => .halted
  | .faulted => .faulted
  | .running => if (s.move lines).isSome then .running else .stalled

end Sys2Proof.Machine
end

