-- ==== Sys2Proof/Safety.lean ====
section
/-! DEFINITION. The terms claims about runs are stated in: the machine's invariant, the spec's value invariant INV, what
the next instruction is, and a safe run. -/

namespace Sys2Proof.Machine

/-- The instruction at the pc, as the memory is now, is `i` (spec/40_execution_cycle.md R53). -/
def State.DecodesTo (s : State) (i : Instr) : Prop := ∃ rest, s.decodeAt = .ok (i, rest)

/-- What every state of a run satisfies: the memory is in canonical form; the fault record is absent in `Running` and
`Halted` (spec/10_state.md R17); in `Faulted` it is the record of a fault of the instruction the pc still points
at (R17, R57, R95). -/
structure State.Inv (s : State) : Prop where
  memory : s.mem.wf = true
  noRecord : s.runState ≠ .faulted → s.fault = none
  record : s.runState = .faulted →
    ∃ c : Cause, s.fault = some { kind := c.kind, cause := c, pc := s.pc, op := s.memRead? s.pc }

/-- The spec's invariant INV (R23): every register and every stack entry is at most 32767. -/
structure State.ValueInv (s : State) : Prop where
  regs : ∀ i, (s.reg i).toNat ≤ 32767
  stack : ∀ v ∈ s.stack, v.toNat ≤ 32767

/-- `n` moves from `s`, steps of the core and refills from the host's `lines`, meet no fault of the core: no state the
run goes through is `Faulted`. A run that halts, or that stalls and is never refilled, is safe
(spec/70_reset_and_hazards.md R106). -/
def State.SafeFor (lines : List (List Byte)) (n : Nat) (s : State) : Prop :=
  ∀ k, k ≤ n → (s.runHost k lines).2.runState ≠ .faulted

/-- A program that never faults, whatever the host supplies and however long it runs. -/
def SafeProgram (image : List Byte) : Prop :=
  ∀ s : State, State.load image = some s → ∀ lines n, s.SafeFor lines n

end Sys2Proof.Machine
end

