-- ==== Sys2Proof/Certificates/Slice0/Obligations.lean ====
section
/-! DEFINITION. The statements for the provers. The first part is the vocabulary they are written in: the spec's ranges and
pseudocode, in numbers, so that a statement can be held beside its rule. -/

open Sys2Proof Sys2Proof.Machine

namespace Sys2Proof.Claim

/-! ### Operand words by their ranges (R40) -/

/-- The word names a register: 32768..32775. -/
def IsReg (w : Word) : Prop := 32768 ≤ w.toNat ∧ w.toNat ≤ 32775

/-- The word is `Invalid`: 32776..65535. -/
def IsInvalid (w : Word) : Prop := 32776 ≤ w.toNat

/-- The register a register-reference word names: `w[2:0]`. -/
def regOf (w : Word) : RegIx := ⟨w.toNat % 8, Nat.mod_lt _ (by decide)⟩

/-- The effective value of a word that is not `Invalid` (R41). -/
def value (s : State) (w : Word) : Word := if w.toNat ≤ 32767 then w else s.reg (regOf w)

/-! ### The instruction at the pc, in numbers (R53) -/

/-- The core is `Running`, the pc is a valid address, and the opcode word there is `op`. -/
def At (s : State) (op : Nat) : Prop :=
  s.runState = .running ∧ s.pc.toNat ≤ 32767 ∧ (s.mem.readWord s.pc.toNat).toNat = op

/-- The word `k` places after the opcode word, where the memory has one. -/
def word (s : State) (k : Nat) : Word := s.mem.readWord (s.pc.toNat + k)

/-- The step of an instruction with the roles `value`: the decode faults in the order of R53, then what the
instruction does with the value. -/
def stepV (s : State) (own : Word → Host.Outcome State Fault Refusal) : Host.Outcome State Fault Refusal :=
  if 32767 < s.pc.toNat + 1 then .next (raise .memRange s)
  else if 32776 ≤ (word s 1).toNat then .next (raise .badOperand s)
  else own (value s (word s 1))

/-- The step of an instruction with the roles `value, value`. -/
def stepVV (s : State) (own : Word → Word → Host.Outcome State Fault Refusal) : Host.Outcome State Fault Refusal :=
  if 32767 < s.pc.toNat + 1 then .next (raise .memRange s)
  else if 32776 ≤ (word s 1).toNat then .next (raise .badOperand s)
  else if 32767 < s.pc.toNat + 2 then .next (raise .memRange s)
  else if 32776 ≤ (word s 2).toNat then .next (raise .badOperand s)
  else own (value s (word s 1)) (value s (word s 2))

/-- The step of an instruction with the role `dest`: the decode fault, then the destination check of R54, then what
the instruction does with the register. -/
def stepD (s : State) (own : RegIx → Host.Outcome State Fault Refusal) : Host.Outcome State Fault Refusal :=
  if 32767 < s.pc.toNat + 1 then .next (raise .memRange s)
  else if (word s 1).toNat < 32768 ∨ 32775 < (word s 1).toNat then .next (raise .destNotRegister s)
  else own (regOf (word s 1))

/-- The step of an instruction with the roles `dest, value`. -/
def stepDV (s : State) (own : RegIx → Word → Host.Outcome State Fault Refusal) : Host.Outcome State Fault Refusal :=
  if 32767 < s.pc.toNat + 1 then .next (raise .memRange s)
  else if 32767 < s.pc.toNat + 2 then .next (raise .memRange s)
  else if 32776 ≤ (word s 2).toNat then .next (raise .badOperand s)
  else if (word s 1).toNat < 32768 ∨ 32775 < (word s 1).toNat then .next (raise .destNotRegister s)
  else own (regOf (word s 1)) (value s (word s 2))

/-- The step of an instruction with the roles `dest, value, value`. -/
def stepDVV (s : State) (own : RegIx → Word → Word → Host.Outcome State Fault Refusal) :
    Host.Outcome State Fault Refusal :=
  if 32767 < s.pc.toNat + 1 then .next (raise .memRange s)
  else if 32767 < s.pc.toNat + 2 then .next (raise .memRange s)
  else if 32776 ≤ (word s 2).toNat then .next (raise .badOperand s)
  else if 32767 < s.pc.toNat + 3 then .next (raise .memRange s)
  else if 32776 ≤ (word s 3).toNat then .next (raise .badOperand s)
  else if (word s 1).toNat < 32768 ∨ 32775 < (word s 1).toNat then .next (raise .destNotRegister s)
  else own (regOf (word s 1)) (value s (word s 2)) (value s (word s 3))

/-- `x[d] <- v; pc <- p + n`, every other component as before; the sum is not reduced modulo 32768. -/
def wrote (s : State) (d : RegIx) (v : Word) (n : Nat) : State :=
  { s with x := s.x.set d.val v, pc := BitVec.ofNat 16 (s.pc.toNat + n) }

/-- The fault record (R17) of a step that starts in `s`. -/
def recordOf (s : State) (k : FaultKind) (c : Cause) : FaultRecord where
  kind := k
  cause := c
  pc := s.pc
  op := if s.pc.toNat ≤ 32767 then some (s.mem.readWord s.pc.toNat) else none

/-- Operand roles (R43): `true` is `value`, `false` is `dest`. -/
def roles : Nat → List Bool
  | 0 => []
  | 1 => [false, true]
  | 2 => [true]
  | 3 => [false]
  | 4 => [false, true, true]
  | 5 => [false, true, true]
  | 6 => [true]
  | 7 => [true, true]
  | 8 => [true, true]
  | 9 => [false, true, true]
  | 10 => [false, true, true]
  | 11 => [false, true, true]
  | 12 => [false, true, true]
  | 13 => [false, true, true]
  | 14 => [false, true]
  | 15 => [false, true]
  | 16 => [true, true]
  | 17 => [true]
  | 18 => []
  | 19 => [true]
  | 20 => [false]
  | _ => []

/-- Every operand word before number `k` was fetched and, where its role is `value`, was not `Invalid`. -/
def PassedBefore (s : State) (op k : Nat) : Prop :=
  ∀ j, 1 ≤ j → j < k → s.pc.toNat + j ≤ 32767 ∧ ((roles op)[j - 1]? = some true → ¬ IsInvalid (word s j))

/-- The operand number `k` of opcode `op` is the first whose word lies beyond the memory. -/
def FirstBeyond (s : State) (op k : Nat) : Prop :=
  1 ≤ k ∧ k ≤ (roles op).length ∧ PassedBefore s op k ∧ 32767 < s.pc.toNat + k

/-- The operand number `k` of opcode `op` is the first that faults, by being `Invalid` in a value role. -/
def FirstInvalid (s : State) (op k : Nat) : Prop :=
  1 ≤ k ∧ k ≤ (roles op).length ∧ PassedBefore s op k ∧ s.pc.toNat + k ≤ 32767 ∧ (roles op)[k - 1]? = some true ∧
    IsInvalid (word s k)

/-! ### Frames -/

/-- Every component but the registers and the pc is as before; so is every byte of memory. -/
def SameButRegsPc (s t : State) : Prop :=
  t.stack = s.stack ∧ t.mem = s.mem ∧ (∀ k, t.mem.readByte k = s.mem.readByte k) ∧ t.runState = s.runState ∧
    t.fault = s.fault ∧ t.inbuf = s.inbuf ∧ t.outlog = s.outlog

/-- Every register but `r` is as before. -/
def OtherRegsSame (s t : State) (r : RegIx) : Prop := ∀ j, j ≠ r → t.reg j = s.reg j

/-- `o` is a next state in which register `r` holds a word with the property `result`, the pc has advanced by `n`, and
nothing else has changed. -/
def CompletesWriting (o : Host.Outcome State Fault Refusal) (s : State) (r : RegIx) (n : Nat) (result : Word → Prop) :
    Prop :=
  ∃ t, o = .next t ∧ result (t.reg r) ∧ OtherRegsSame s t r ∧ t.pc = s.pc + BitVec.ofNat 16 n ∧ SameButRegsPc s t

/-- `o` is a next state whose pc is `target` and in which nothing else has changed. -/
def CompletesAtPc (o : Host.Outcome State Fault Refusal) (s : State) (target : Word) : Prop :=
  ∃ t, o = .next t ∧ t.pc = target ∧ (∀ j, t.reg j = s.reg j) ∧ SameButRegsPc s t

end Sys2Proof.Claim

open Sys2Proof.Claim

/-! ## Encoding and decoding -/

/-- 30_encoding.md R43, R44: the words of a well-formed instruction decode to it, whatever words follow. -/
def Obligations.DecodeUndoesEncode : Prop :=
  ∀ (i : Instr) (rest : List Word), i.wf = true → decode (encode i ++ rest) = .ok (i, rest)

/-- 30_encoding.md R43, R47, R48: whatever decodes, the instruction is well-formed and its words are the words read:
each list of words has one reading, and its length is fixed by the opcode. -/
def Obligations.EncodeUndoesDecode : Prop :=
  ∀ (ws rest : List Word) (i : Instr), decode ws = .ok (i, rest) →
    i.wf = true ∧ ws = encode i ++ rest ∧ (encode i).length = i.len

/-- 30_encoding.md R43, R50: words written out from the opcode table, one per family, read as what they stand for. -/
def Obligations.WrittenOutWordsDecode : Prop :=
  decode [1#16, 32769#16, 1234#16] = .ok (.set 32769#16 (.lit 1234#16), []) ∧
  decode [4#16, 32768#16, 32769#16, 7#16] = .ok (.eq 32768#16 (.reg 1) (.lit 7#16), []) ∧
  decode [7#16, 32768#16, 50#16] = .ok (.jt (.reg 0) (.lit 50#16), []) ∧
  decode [9#16, 32768#16, 5#16, 32775#16] = .ok (.add 32768#16 (.lit 5#16) (.reg 7), []) ∧
  decode [16#16, 20#16, 32767#16] = .ok (.wmem (.lit 20#16) (.lit 32767#16), []) ∧
  decode [17#16, 10#16] = .ok (.call (.lit 10#16), []) ∧
  decodeBytes [0x13#8, 0x00#8, 0x41#8, 0x00#8] = .ok (.out (.lit 65#16), []) ∧
  decode [0#16, 21#16] = .ok (.halt, [21#16])

/-- 30_encoding.md R40: the three ranges and their bit tests, on all 65536 words. -/
def Obligations.ClassifyHasThreeRanges : Prop :=
  ∀ w : Word,
    ((w.toNat ≤ 32767 ↔ w.getLsbD 15 = false) ∧ (w.toNat ≤ 32767 → classify w = .literal w)) ∧
    ((IsReg w ↔ w.getLsbD 15 = true ∧ w.extractLsb' 3 12 = 0#12) ∧
      (IsReg w → ∃ i : RegIx, classify w = .registerRef i ∧ i.val = w.toNat - 32768 ∧
        i.val = (w.extractLsb' 0 3).toNat)) ∧
    ((IsInvalid w ↔ w.getLsbD 15 = true ∧ w.extractLsb' 3 12 ≠ 0#12) ∧ (IsInvalid w → classify w = .invalid))

/-- 30_encoding.md R41: the effective value of a value-role word; register contents are taken as they are, whatever
they are. -/
def Obligations.ValueRoleResolution : Prop :=
  ∀ (s : State) (w : Word),
    (w.toNat ≤ 32767 → (srcOf? w).map s.val = some w) ∧
    (∀ i : RegIx, w.toNat = 32768 + i.val → (srcOf? w).map s.val = some (s.reg i)) ∧
    (IsInvalid w → ∀ ws, takeValue (w :: ws) = .error .badOperand ∧ causeOfDecodeError .badOperand = .badOperand)

/-- 40_execution_cycle.md R53: the fetch and decode phase. The first fault in the order opcode fetch, opcode, then operand
by operand range before value, is the one raised; where there is none, the instruction read is the one whose words
stand at the pc. The order of reading and resolving is the spec's decision D8. -/
def Obligations.DecodePhaseFaultsInOrder : Prop :=
  ∀ s : State, s.runState = .running →
    (32767 < s.pc.toNat → step s = .next (raise .memRange s)) ∧
    ∀ op : Nat, At s op →
      (21 < op → step s = .next (raise .badOpcode s)) ∧
      (op ≤ 21 →
        (∀ k, FirstBeyond s op k → step s = .next (raise .memRange s)) ∧
        (∀ k, FirstInvalid s op k → step s = .next (raise .badOperand s)) ∧
        (PassedBefore s op ((roles op).length + 1) →
          ∃ i, s.DecodesTo i ∧ i.wf = true ∧ step s = exec i s ∧
            encode i = s.mem.readWord s.pc.toNat :: (List.range (roles op).length).map (fun k => word s (k + 1))))

/-- 40_execution_cycle.md R53, R54: when the words at the pc are those of a well-formed instruction, the step of a
running core is that instruction's meaning, and nothing is done around it. -/
def Obligations.StepRunsDecodedInstruction : Prop :=
  ∀ (s : State) (i : Instr), s.runState = .running → i.wf = true →
    s.pc.toNat + (encode i).length ≤ 32768 →
    (∀ k, (h : k < (encode i).length) → s.mem.readWord (s.pc.toNat + k) = (encode i)[k]) →
    step s = exec i s

/-! ## Faults of the core -/

/-- 30_encoding.md R46, 60_exceptions.md R89: an opcode word of 22 or more raises `DecodeFault(BadOpcode)`, whatever
stands after it, and the record holds the offending word. -/
def Obligations.IllegalOpcodeFaults : Prop :=
  ∀ (s : State) (op : Nat), At s op →
    (22 ≤ op ↔ step s = .next (raise .badOpcode s)) ∧
    (22 ≤ op → ∃ t r, step s = .next t ∧ t.fault = some r ∧ r.kind = .decodeFault ∧ r.cause = .badOpcode ∧
      r.pc = s.pc ∧ r.op = some (s.mem.readWord s.pc.toNat))

/-- 60_exceptions.md R95: entering `Faulted`. The kind of each cause is that of the table R88, whose cause names and
fourth kind are the spec's decision D14. -/
def Obligations.RaiseRecordsTheFault : Prop :=
  ∀ (c : Cause) (s : State), ∃ k : FaultKind,
    (c = .badOpcode ∨ c = .badOperand → k = .decodeFault) ∧
    (c = .memRange ∨ c = .destNotRegister → k = .addressFault) ∧
    (c = .empty ∨ c = .overflow → k = .stackFault) ∧
    (c = .modZero → k = .arithmeticFault) ∧
    raise c s = { s with runState := .faulted, fault := some (recordOf s k c) }

/-- 40_execution_cycle.md R57: a step that faults changes `run_state` and `fault` alone; a step that does not leaves the
core `Running`, or `Halted` by `halt`, with the record as it was. The step that does not fault is the meaning of the
instruction at the pc. That a fault leaves no partial effect in the state is the spec's decision D7. -/
def Obligations.FaultsArePrecise : Prop :=
  ∀ s t : State, step s = .next t →
    (∃ c : Cause, t.runState = .faulted ∧
      t = { s with runState := .faulted, fault := some (recordOf s c.kind c) }) ∨
    ((t.runState = .running ∧ ¬ s.DecodesTo .halt ∨ t.runState = .halted ∧ s.DecodesTo .halt) ∧ t.fault = s.fault ∧
      ∃ i, s.DecodesTo i ∧ exec i s = .next t)

/-- 60_exceptions.md R92: `AddressFault(MemRange)` is raised in exactly the three cases (a), (b), (c). The spec's
decisions D2, D3, D4. -/
def Obligations.MemRangeRaisedExactly : Prop :=
  ∀ s : State, s.runState = .running →
    (step s = .next (raise .memRange s) ↔
      32767 < s.pc.toNat ∨
      (∃ op k, At s op ∧ op ≤ 21 ∧ FirstBeyond s op k) ∨
      (∃ d a, s.DecodesTo (.rmem d a) ∧ IsReg d ∧ 32767 < (s.val a).toNat) ∨
      (∃ a b, s.DecodesTo (.wmem a b) ∧ 32767 < (s.val a).toNat)) ∧
    (∀ r, (raise .memRange s).fault = some r →
      r.pc = s.pc ∧ (r.op = none ↔ 32767 < s.pc.toNat) ∧
        (s.pc.toNat ≤ 32767 → r.op = some (s.mem.readWord s.pc.toNat)))

/-- 60_exceptions.md R90: `DecodeFault(BadOperand)` is raised exactly when the first operand to fault is an `Invalid`
word in a value role; register contents do not enter into it. -/
def Obligations.BadOperandRaisedExactly : Prop :=
  ∀ s : State, s.runState = .running →
    (step s = .next (raise .badOperand s) ↔ ∃ op k, At s op ∧ op ≤ 21 ∧ FirstInvalid s op k) ∧
    (step s = .next (raise .badOperand s) →
      ∀ x : Vector Word 8, step { s with x := x } = .next (raise .badOperand { s with x := x }))

/-- 60_exceptions.md R91: `AddressFault(DestNotRegister)` is raised exactly when the instruction decodes and its
destination word is in 0..32767 or in 32776..65535, by each of the twelve instructions that have one, before any check
of their own. That it comes first is the spec's decision D8. -/
def Obligations.DestNotRegisterRaisedExactly : Prop :=
  (∀ s : State, s.runState = .running →
    (step s = .next (raise .destNotRegister s) ↔
      ∃ i d, s.DecodesTo i ∧ i.destWord? = some d ∧ (d.toNat ≤ 32767 ∨ 32776 ≤ d.toNat))) ∧
  ∀ (s : State) (d : Word) (a b : Src), d.toNat ≤ 32767 ∨ 32776 ≤ d.toNat →
    ∀ i ∈ [Instr.set d a, .pop d, .eq d a b, .gt d a b, .add d a b, .mult d a b, .mod d a b, .and d a b, .or d a b,
      .not d a, .rmem d a, .inp d], exec i s = .next (raise .destNotRegister s)

/-- 60_exceptions.md R93: `StackFault(Empty)` is raised exactly by `pop` (with a register destination) and `ret` on an
empty stack; the stack stays empty and no register is written. -/
def Obligations.StackEmptyRaisedExactly : Prop :=
  ∀ s : State, s.runState = .running →
    (step s = .next (raise .empty s) ↔
      s.stack = [] ∧ ((∃ d, s.DecodesTo (.pop d) ∧ IsReg d) ∨ s.DecodesTo .ret)) ∧
    (raise .empty s).stack = s.stack ∧ (∀ j, (raise .empty s).reg j = s.reg j) ∧
    (raise .empty s).runState = .faulted

/-- 60_exceptions.md R94: `ArithmeticFault(ModZero)` is raised exactly by `mod` (with a register destination) whose
effective divisor is 0, a literal or a register's; no register is written. The spec's decision D5. -/
def Obligations.ModZeroRaisedExactly : Prop :=
  ∀ s : State, s.runState = .running →
    (step s = .next (raise .modZero s) ↔
      ∃ d a b, s.DecodesTo (.mod d a b) ∧ IsReg d ∧ (s.val b).toNat = 0) ∧
    (∀ j, (raise .modZero s).reg j = s.reg j) ∧ (raise .modZero s).runState = .faulted

/-- 60_exceptions.md R102: `StackFault(Overflow)` under a finite capacity: a push onto a stack that holds `n` entries
raises it, from `push` and from `call`, with no other change, and a push below the capacity goes as without one. With
the unbounded stack this hardware takes, no step raises it. That it is unbounded is the model's choice (DESIGN CHOICE,
notes/assumptions/3.md; the spec's D12). -/
def Obligations.OverflowOnlyUnderFiniteCapacity : Prop :=
  (∀ (n : Nat) (v : Src) (s : State),
    (n ≤ s.stack.length →
      execPushUnder (some n) v s = .next (raise .overflow s) ∧ execCallUnder (some n) v s = .next (raise .overflow s)) ∧
    (s.stack.length < n →
      execPushUnder (some n) v s = exec (.push v) s ∧ execCallUnder (some n) v s = exec (.call v) s)) ∧
  ∀ s : State, step s ≠ .next (raise .overflow s)

/-- 40_execution_cycle.md R56: a step exists if and only if the core is `Running` and is not at an `in` with a valid
destination and an empty input buffer. -/
def Obligations.StepExistsExactly : Prop :=
  ∀ s : State, (∃ t, step s = .next t) ↔
    s.runState = .running ∧ ¬ ((∃ d, s.DecodesTo (.inp d) ∧ IsReg d) ∧ s.inbuf = [])

/-- 10_state.md R16: only a `Running` core takes steps; a step ends in `Halted` exactly when the instruction is
`halt`, and in `Faulted` exactly when it raises a fault; `Halted` and `Faulted` have no step. -/
def Obligations.RunStateTransitions : Prop :=
  State.reset.runState = .running ∧
  (∀ s t : State, step s = .next t →
    s.runState = .running ∧ (t.runState = .halted ↔ At s 0) ∧
    (t.runState = .faulted ↔ ∃ c, t = raise c s)) ∧
  ∀ s : State, s.runState = .halted ∨ s.runState = .faulted → ∀ t, step s ≠ .next t

/-- 10_state.md R16, 47_io.md R82, 60_exceptions.md R97: the three ways a state has no step, by name, and no others;
the model refuses nothing. -/
def Obligations.StopsAreExactlyThree : Prop :=
  ∀ s : State,
    (step s = .fault .alreadyHalted ↔ s.runState = .halted) ∧
    (step s = .fault .alreadyFaulted ↔ s.runState = .faulted) ∧
    (step s = .fault .stalledOnInput ↔
      s.runState = .running ∧ (∃ d, s.DecodesTo (.inp d) ∧ IsReg d) ∧ s.inbuf = []) ∧
    ∀ r, step s ≠ .refused r

/-- 70_reset_and_hazards.md R106: the fates of a run of the core with a host that supplies `lines`, one at each stall.
Every state of it satisfies the invariant. Either there is a further move at every length, or the run comes to a state
it stays in: Halted with no record, or Faulted with the record of the instruction the pc points at, or Running and
stalled with the supply at its end, where one more line would lift the stall. The run is safe at every length unless it
ends Faulted. The last clause ties the run to the core's steps alone. That the supply is a finite list is the model's
choice (DESIGN CHOICE, notes/assumptions/15.md): a host that refills for ever is covered by its finite prefixes. -/
def Obligations.RunEndsInOneOfItsFates : Prop :=
  ∀ (lines : List (List Byte)) (s : State), s.Inv →
    (∀ n, (s.runHost n lines).2.Inv) ∧
    ((∀ n, (s.runHost n lines).2.fate (s.runHost n lines).1 = .running ∧ s.SafeFor lines n ∧
        ∃ p, (s.runHost n lines).2.move (s.runHost n lines).1 = some p ∧ s.runHost (n + 1) lines = p) ∨
      ∃ n left t, (∀ m, n ≤ m → s.runHost m lines = (left, t)) ∧ (∀ u, step t ≠ .next u) ∧
        ((t.fate left = .halted ∧ t.runState = .halted ∧ t.fault = none ∧ ∀ m, s.SafeFor lines m) ∨
          (t.fate left = .faulted ∧ t.runState = .faulted ∧ ¬ s.SafeFor lines n ∧
            ∃ r, t.fault = some r ∧ r.pc = t.pc) ∨
          (t.fate left = .stalled ∧ t.runState = .running ∧ t.stalled = true ∧ t.inbuf = [] ∧
            (∀ line rest, left = line :: rest → line = []) ∧ (∀ m, s.SafeFor lines m) ∧
            ∀ line rest, line ≠ [] → t.move (line :: rest) = some (rest, { t with inbuf := line })))) ∧
    ∀ n,
      (∃ t, Host.Core.run core n s = .next t ∧ s.runHost n lines = (lines, t)) ∨
      ∃ k t f, k < n ∧ Host.Core.run core k s = .next t ∧ s.runHost k lines = (lines, t) ∧
        Host.Core.run core n s = .fault f ∧ step t = .fault f

/-! ## Reset, load and the host -/

/-- 10_state.md R22, 70_reset_and_hazards.md R104: the state after reset and load of any image of `2n` bytes, `n` at most
32768; every other image is refused. The refusal is the spec's decision D13. That the registers are 0 is the model's
choice (DESIGN CHOICE, notes/assumptions/2.md; the spec's D1). -/
def Obligations.LoadedStateIsTheImageAndZero : Prop :=
  ∀ image : List Byte,
    (∀ n, image.length = 2 * n → n ≤ 32768 → ∃ s, State.load image = some s ∧
      (∀ a : Word, a.toNat < n → ∃ w, s.memRead? a = some w ∧
        w.toNat = (image.getD (2 * a.toNat) 0#8).toNat + 256 * (image.getD (2 * a.toNat + 1) 0#8).toNat) ∧
      (∀ a : Word, n ≤ a.toNat → a.toNat ≤ 32767 → s.memRead? a = some 0#16) ∧
      (∀ i, s.reg i = 0#16) ∧ s.pc = 0#16 ∧ s.stack = [] ∧ s.inbuf = [] ∧ s.outlog = [] ∧ s.runState = .running ∧
      s.fault = none) ∧
    (image.length % 2 = 1 ∨ 65536 < image.length → State.load image = none)

/-- 10_state.md R17, R22, R23: the reset state satisfies the machine's invariant and the spec's INV. The clause on the
registers rests on the model's reset value 0 (DESIGN CHOICE, notes/assumptions/2.md). -/
def Obligations.InvHoldsAtReset : Prop := State.reset.Inv ∧ State.reset.ValueInv

/-- 10_state.md R22, R23: so does the state after the load of any image. It rests on the same choice
(notes/assumptions/2.md). -/
def Obligations.LoadEstablishesInv : Prop :=
  ∀ (image : List Byte) (s : State), State.load image = some s → s.Inv ∧ s.ValueInv

/-- 10_state.md R17, 40_execution_cycle.md R57: every step keeps the machine's invariant (canonical memory; the record
absent unless `Faulted`, and then the record of the instruction the pc points at), and so does every refill. -/
def Obligations.StepKeepsInv : Prop :=
  ∀ s : State, s.Inv →
    (∀ t, step s = .next t → t.Inv) ∧ (∀ line t, State.refill line s = some t → t.Inv)

/-- 10_state.md R23: every step preserves INV except in exactly two cases, `rmem` of a cell above 32767 and a `call` at
32766, and in those it does not. The rule is marked as derived by the spec itself. -/
def Obligations.ValueInvBrokenExactly : Prop :=
  ∀ s t : State, s.ValueInv → step s = .next t →
    (¬ t.ValueInv ↔
      (∃ d a, s.DecodesTo (.rmem d a) ∧ IsReg d ∧ 32767 < (s.mem.readWord (s.val a).toNat).toNat) ∨
      (s.pc.toNat = 32766 ∧ ∃ v, s.DecodesTo (.call v)))

/-- 10_state.md R23: while INV holds, every effective value of a decoded instruction is at most 32767, so `rmem`, `wmem`
and jumps stay in range: a step's only `MemRange` faults come from the pc or an operand word beyond the memory,
and a next pc above 32767 only from sequential advance. -/
def Obligations.ValueInvKeepsAddressesInRange : Prop :=
  ∀ s : State, s.ValueInv →
    (∀ w v, srcOf? w = some v → (s.val v).toNat ≤ 32767) ∧
    (s.runState = .running →
      (step s = .next (raise .memRange s) ↔
        32767 < s.pc.toNat ∨ ∃ op k, At s op ∧ op ≤ 21 ∧ FirstBeyond s op k)) ∧
    (∀ t, step s = .next t → s.pc.toNat ≤ 32767 → 32767 < t.pc.toNat →
      t.pc.toNat = 32768 ∧ ∃ i, s.DecodesTo i ∧ s.pc.toNat + i.len = 32768)

/-- 47_io.md R82, 60_exceptions.md R101, 70_reset_and_hazards.md R110: the host can refill exactly a stalled core, with a
non-empty line; the refill changes `inbuf` alone, and the next step completes that same `in`. -/
def Obligations.RefillResumesTheStalledIn : Prop :=
  ∀ (s : State) (line : List Byte),
    ((∃ s', State.refill line s = some s') ↔ step s = .fault .stalledOnInput ∧ line ≠ []) ∧
    ∀ (b : Byte) (bs : List Byte), line = b :: bs → step s = .fault .stalledOnInput →
      State.refill line s = some { s with inbuf := line } ∧
      ∃ d r t, s.DecodesTo (.inp d) ∧ d.toNat = 32768 + r.val ∧ step { s with inbuf := line } = .next t ∧
        (t.reg r).toNat = b.toNat ∧ OtherRegsSame s t r ∧ t.pc = s.pc + 2#16 ∧ t.inbuf = bs ∧
        t.stack = s.stack ∧ t.mem = s.mem ∧ t.runState = .running ∧ t.fault = s.fault ∧ t.outlog = s.outlog

/-- 20_memory.md R39: whatever a run has done since the load of an image, control that reaches a word beyond the image
that is still as loaded halts there, with nothing else changed. -/
def Obligations.UntouchedMemoryHalts : Prop :=
  ∀ (image : List Byte) (s t : State), State.load image = some s → t.runState = .running →
    image.length ≤ 2 * t.pc.toNat → t.pc.toNat ≤ 32767 →
    t.mem.readWord t.pc.toNat = s.mem.readWord t.pc.toNat →
    step t = .next { t with runState := .halted }

/-! ## Memory -/

/-- 20_memory.md R26, R27, R31: a read gives the last word written; a write changes one word and no other state; an
address above 32767 gives neither. Over memories in canonical form, which every state of a run has. -/
def Obligations.MemoryReadsWhatWasWritten : Prop :=
  ∀ (s : State) (a v : Word), s.mem.wf = true →
    (a.toNat ≤ 32767 → ∃ t, s.memWrite? a v = some t ∧ t.mem.wf = true ∧ t.memRead? a = some v ∧
      (∀ a' : Word, a' ≠ a → t.memRead? a' = s.memRead? a') ∧
      (∀ k, k / 2 ≠ a.toNat → t.mem.readByte k = s.mem.readByte k) ∧ t = { s with mem := t.mem }) ∧
    (32767 < a.toNat → s.memWrite? a v = none ∧ s.memRead? a = none)

/-- The model's canonical form (notes/assumptions/1.md; the spec's array is 10_state.md R15): two memories in that form
that read alike at every address 0..32767 are the same data. -/
def Obligations.EqualReadsEqualMemories : Prop :=
  ∀ m m' : Memory, m.wf = true → m'.wf = true → (∀ a, a < 32768 → m.readWord a = m'.readWord a) → m = m'

/-- 10_state.md R15, 20_memory.md R28: only `wmem` changes memory, and it changes the one word its first operand
addresses, to the value of its second. -/
def Obligations.OnlyWmemWritesMemory : Prop :=
  ∀ s t : State, step s = .next t →
    t.mem = s.mem ∨
    ∃ a b, s.DecodesTo (.wmem a b) ∧ (s.val a).toNat ≤ 32767 ∧
      (s.mem.wf = true → t.mem.readWord (s.val a).toNat = s.val b) ∧
      (∀ q, q ≠ (s.val a).toNat → t.mem.readWord q = s.mem.readWord q) ∧
      ∀ k, k / 2 ≠ (s.val a).toNat → t.mem.readByte k = s.mem.readByte k

/-- 20_memory.md R36, 70_reset_and_hazards.md R108: a `wmem` that overwrites the very next instruction's opcode word is
seen by the very next fetch: the next step runs the new word, or faults on it if it is no opcode. -/
def Obligations.NextFetchSeesTheStore : Prop :=
  ∀ (s : State) (a b : Src), s.runState = .running → s.mem.wf = true → s.DecodesTo (.wmem a b) →
    (s.val a).toNat = s.pc.toNat + 3 → s.pc.toNat + 3 ≤ 32767 →
    ∃ t, step s = .next t ∧ At t (s.val b).toNat ∧ t.pc.toNat = s.pc.toNat + 3 ∧
      ((s.val b).toNat = 0 → step t = exec .halt t) ∧
      ((s.val b).toNat = 18 → step t = exec .ret t) ∧
      ((s.val b).toNat = 21 → step t = exec .noop t) ∧
      (22 ≤ (s.val b).toNat → step t = .next (raise .badOpcode t))

/-! ## What a step changes, component by component -/

/-- 10_state.md R11: a register changes only as the destination of one of the twelve instructions that have one. -/
def Obligations.RegistersWrittenOnlyAsDestination : Prop :=
  ∀ s t : State, step s = .next t → ∀ j : RegIx, t.reg j ≠ s.reg j →
    ∃ i d, s.DecodesTo i ∧ i.destWord? = some d ∧ d.toNat = 32768 + j.val

/-- 10_state.md R14: the stack changes only at its top, by one entry, and only by `push` and `call` (which add the value
and the return address) and `pop` and `ret` (which take the entry as data and as the new pc). -/
def Obligations.StackChangesOnlyAtItsTop : Prop :=
  ∀ s t : State, step s = .next t →
    t.stack = s.stack ∨
    (∃ v, s.DecodesTo (.push v) ∧ t.stack = s.stack ++ [s.val v]) ∨
    (∃ v, s.DecodesTo (.call v) ∧ t.stack = s.stack ++ [s.pc + 2#16]) ∨
    (∃ d r w, s.DecodesTo (.pop d) ∧ d.toNat = 32768 + r.val ∧ s.stack = t.stack ++ [w] ∧ t.reg r = w) ∨
    (s.DecodesTo .ret ∧ s.stack = t.stack ++ [t.pc])

/-- 10_state.md R19: nothing but `out` touches the output stream; `out` always completes and appends one byte to it; no
instruction reads it: a core that has emitted other bytes so far takes the same step. -/
def Obligations.OutlogAppendOnlyAndUnread : Prop :=
  (∀ s t : State, step s = .next t →
    t.outlog = s.outlog ∨ ∃ a, s.DecodesTo (.out a) ∧ t.outlog = s.outlog ++ [BitVec.ofNat 8 (s.val a).toNat]) ∧
  (∀ (s : State) (a : Src), s.runState = .running → s.DecodesTo (.out a) →
    ∃ t b, step s = .next t ∧ b.toNat = (s.val a).toNat % 256 ∧ t.outlog = s.outlog ++ [b]) ∧
  ∀ (s t : State) (l : List Byte), step s = .next t →
    ∃ new, t.outlog = s.outlog ++ new ∧ step { s with outlog := l } = .next { t with outlog := l ++ new }

/-- 10_state.md R18, 47_io.md R82: only `in` takes a byte, the head of the buffer, which it delivers zero-extended; no
other instruction's step depends on the buffer. -/
def Obligations.InputConsumedOnlyByIn : Prop :=
  ∀ s t : State, step s = .next t →
    (t.inbuf = s.inbuf ∨
      ∃ d r b, s.DecodesTo (.inp d) ∧ d.toNat = 32768 + r.val ∧ s.inbuf = b :: t.inbuf ∧
        (t.reg r).toNat = b.toNat) ∧
    ((¬ ∃ d, s.DecodesTo (.inp d)) →
      ∀ l, step { s with inbuf := l } = .next { t with inbuf := l })

/-- 10_state.md R13, 40_execution_cycle.md R55: the pc after each instruction's step, and after a step that faults. -/
def Obligations.PcAfterEachInstruction : Prop :=
  ∀ s t : State, step s = .next t →
    (t.runState = .faulted → t.pc = s.pc) ∧
    (t.runState ≠ .faulted → ∃ i, s.DecodesTo i ∧
      match i with
      | .halt => t.pc = s.pc
      | .set _ _ | .not _ _ | .rmem _ _ | .wmem _ _ => t.pc.toNat = s.pc.toNat + 3
      | .eq _ _ _ | .gt _ _ _ | .add _ _ _ | .mult _ _ _ | .mod _ _ _ | .and _ _ _ | .or _ _ _ =>
        t.pc.toNat = s.pc.toNat + 4
      | .push _ | .pop _ | .out _ | .inp _ => t.pc.toNat = s.pc.toNat + 2
      | .noop => t.pc.toNat = s.pc.toNat + 1
      | .jmp v => t.pc = s.val v
      | .jt a v =>
        ((s.val a).toNat ≠ 0 → t.pc = s.val v) ∧ ((s.val a).toNat = 0 → t.pc.toNat = s.pc.toNat + 3)
      | .jf a v =>
        ((s.val a).toNat = 0 → t.pc = s.val v) ∧ ((s.val a).toNat ≠ 0 → t.pc.toNat = s.pc.toNat + 3)
      | .call v => t.pc = s.val v ∧ t.stack = s.stack ++ [BitVec.ofNat 16 (s.pc.toNat + 2)]
      | .ret => s.stack = t.stack ++ [t.pc])

/-! ## The rules of the instructions, from the words in memory -/

/-- 41_set_push_pop.md R60. -/
def Obligations.SetStep : Prop :=
  ∀ s : State, At s 1 → step s = stepDV s fun d v => .next (wrote s d v 3)

/-- 41_set_push_pop.md R61, with the unbounded stack. That it is unbounded is the model's choice (DESIGN CHOICE,
notes/assumptions/3.md). -/
def Obligations.PushStep : Prop :=
  ∀ s : State, At s 2 → step s = stepV s fun v =>
    .next { s with stack := s.stack ++ [v], pc := BitVec.ofNat 16 (s.pc.toNat + 2) }

/-- 41_set_push_pop.md R62: on an empty stack the fault; on a stack with a top entry `v` over `l`, the pop. The
destination check comes before the empty stack (the spec's decision D8). -/
def Obligations.PopStep : Prop :=
  ∀ s : State, At s 3 →
    (s.stack = [] → step s = stepD s fun _ => .next (raise .empty s)) ∧
    ∀ l v, s.stack = l ++ [v] → step s = stepD s fun d => .next { wrote s d v 2 with stack := l }

/-- 42_compare.md R63, R64: unsigned, on all 16 bits; `gt` is strict. -/
def Obligations.CompareSteps : Prop :=
  ∀ s : State,
    (At s 4 → step s = stepDVV s fun d a b => .next (wrote s d (if a = b then 1#16 else 0#16) 4)) ∧
    (At s 5 → step s = stepDVV s fun d a b => .next (wrote s d (if b.toNat < a.toNat then 1#16 else 0#16) 4))

/-- 43_jumps.md R65, R66, R67: a target above 32767 is accepted; the target of a jump that is not taken is resolved
all the same. -/
def Obligations.JumpSteps : Prop :=
  ∀ s : State,
    (At s 6 → step s = stepV s fun v => .next { s with pc := v }) ∧
    (At s 7 → step s = stepVV s fun a v =>
      .next { s with pc := if a.toNat ≠ 0 then v else BitVec.ofNat 16 (s.pc.toNat + 3) }) ∧
    (At s 8 → step s = stepVV s fun a v =>
      .next { s with pc := if a.toNat = 0 then v else BitVec.ofNat 16 (s.pc.toNat + 3) })

/-- 44_alu.md R69, R70: the natural sum and product, reduced modulo 32768. -/
def Obligations.AddMultSteps : Prop :=
  ∀ s : State,
    (At s 9 → step s = stepDVV s fun d a b =>
      .next (wrote s d (BitVec.ofNat 16 ((a.toNat + b.toNat) % 32768)) 4)) ∧
    (At s 10 → step s = stepDVV s fun d a b =>
      .next (wrote s d (BitVec.ofNat 16 (a.toNat * b.toNat % 32768)) 4))

/-- 44_alu.md R71: the natural-number remainder of the full 16-bit values; the fault when the divisor is 0. The spec's
decisions D6 and D5. -/
def Obligations.ModStep : Prop :=
  ∀ s : State, At s 11 → step s = stepDVV s fun d a b =>
    if b.toNat = 0 then .next (raise .modZero s)
    else .next (wrote s d (BitVec.ofNat 16 (a.toNat % b.toNat)) 4)

/-- 44_alu.md R72, R73: on all 16 bits. The spec's decision D6. -/
def Obligations.AndOrSteps : Prop :=
  ∀ s : State,
    (At s 12 → step s = stepDVV s fun d a b => .next (wrote s d (a &&& b) 4)) ∧
    (At s 13 → step s = stepDVV s fun d a b => .next (wrote s d (a ||| b) 4))

/-- 44_alu.md R74: exclusive or with 0x7FFF, which leaves bit 15 as it was. The spec's decision D6. -/
def Obligations.NotStep : Prop :=
  ∀ s : State, At s 14 → step s = stepDV s fun d a => .next (wrote s d (a ^^^ 0x7FFF#16) 3)

/-- 45_memory_access.md R75: one level, the word raw; the destination check before the address check. The spec's decision
D4. -/
def Obligations.RmemStep : Prop :=
  ∀ s : State, At s 15 → step s = stepDV s fun d a =>
    if 32767 < a.toNat then .next (raise .memRange s) else .next (wrote s d (s.mem.readWord a.toNat) 3)

/-- 45_memory_access.md R76: the step on any operands, and for an address in range the stored word, every other word, and
every other component. The spec's decision D4. The stored word reads back in a memory in canonical form, which every
state of a run has. -/
def Obligations.WmemStep : Prop :=
  ∀ s : State, At s 16 →
    (∃ own, step s = stepVV s own ∧ ∀ a b : Word,
      (32767 < a.toNat → own a b = .next (raise .memRange s)) ∧
      (a.toNat ≤ 32767 → ∃ t, own a b = .next t ∧ (s.mem.wf = true → t.mem.readWord a.toNat = b) ∧
        (∀ q, q ≠ a.toNat → t.mem.readWord q = s.mem.readWord q) ∧
        (∀ k, k / 2 ≠ a.toNat → t.mem.readByte k = s.mem.readByte k) ∧
        t = { s with mem := t.mem, pc := BitVec.ofNat 16 (s.pc.toNat + 3) }))

/-- 46_call_ret.md R77: the return address `p + 2` is not reduced. (The spec's decision D2.) The stack is unbounded
(DESIGN CHOICE, notes/assumptions/3.md). -/
def Obligations.CallStep : Prop :=
  ∀ s : State, At s 17 → step s = stepV s fun v =>
    .next { s with stack := s.stack ++ [BitVec.ofNat 16 (s.pc.toNat + 2)], pc := v }

/-- 46_call_ret.md R78: an empty stack faults and does not halt; otherwise the top word is the new pc, verbatim, and
if it is above 32767 the next step faults at its fetch. -/
def Obligations.RetStep : Prop :=
  ∀ s : State, At s 18 →
    (s.stack = [] → step s = .next (raise .empty s) ∧ (raise .empty s).runState = .faulted) ∧
    ∀ l v, s.stack = l ++ [v] → step s = .next { s with stack := l, pc := v } ∧
      (32767 < v.toNat → step { s with stack := l, pc := v } = .next (raise .memRange { s with stack := l, pc := v }))

/-- 47_io.md R80: one byte, the value modulo 256. -/
def Obligations.OutStep : Prop :=
  ∀ s : State, At s 19 → step s = stepV s fun a =>
    .next { s with outlog := s.outlog ++ [BitVec.ofNat 8 (a.toNat % 256)], pc := BitVec.ofNat 16 (s.pc.toNat + 2) }

/-- 47_io.md R81: the destination check comes before the wait; while the buffer is empty there is no step; otherwise its
head is delivered, zero-extended. The spec's decision D18. -/
def Obligations.InStep : Prop :=
  ∀ s : State, At s 20 →
    (s.inbuf = [] → ∃ f, step s = stepD s fun _ => .fault f) ∧
    ∀ b bs, s.inbuf = b :: bs →
      step s = stepD s fun d => .next { wrote s d (BitVec.ofNat 16 b.toNat) 2 with inbuf := bs }

/-- 48_halt_noop.md R85, R86: `halt` leaves the pc at the `halt` (the spec's decision D9) and everything else as it was,
and there is no step after it; `noop` advances the pc and does nothing else. -/
def Obligations.HaltNoopSteps : Prop :=
  ∀ s : State,
    (At s 0 → step s = .next { s with runState := .halted } ∧
      ∀ t, step { s with runState := .halted } ≠ .next t) ∧
    (At s 21 → step s = .next { s with pc := BitVec.ofNat 16 (s.pc.toNat + 1) })

/-! ## The meanings complete: result and frame of each, for every state and operands -/

/-- R60, R63, R64, R69 to R75: each of the register-writing instructions completes for every register destination, with
its result in that register and nothing else changed but the pc; `mod` where the divisor is not 0, `rmem` where
the address is valid. -/
def Obligations.RegisterWritersComplete : Prop :=
  ∀ (s : State) (d : Word) (r : RegIx) (a b : Src), d.toNat = 32768 + r.val →
    CompletesWriting (exec (.set d a) s) s r 3 (fun w => w = s.val a) ∧
    CompletesWriting (exec (.eq d a b) s) s r 4 (fun w => w.toNat = if s.val a = s.val b then 1 else 0) ∧
    CompletesWriting (exec (.gt d a b) s) s r 4
      (fun w => w.toNat = if (s.val b).toNat < (s.val a).toNat then 1 else 0) ∧
    CompletesWriting (exec (.add d a b) s) s r 4
      (fun w => w.toNat = ((s.val a).toNat + (s.val b).toNat) % 32768) ∧
    CompletesWriting (exec (.mult d a b) s) s r 4
      (fun w => w.toNat = (s.val a).toNat * (s.val b).toNat % 32768) ∧
    ((s.val b).toNat ≠ 0 →
      CompletesWriting (exec (.mod d a b) s) s r 4 (fun w => w.toNat = (s.val a).toNat % (s.val b).toNat)) ∧
    CompletesWriting (exec (.and d a b) s) s r 4
      (fun w => ∀ k, w.getLsbD k = ((s.val a).getLsbD k && (s.val b).getLsbD k)) ∧
    CompletesWriting (exec (.or d a b) s) s r 4
      (fun w => ∀ k, w.getLsbD k = ((s.val a).getLsbD k || (s.val b).getLsbD k)) ∧
    CompletesWriting (exec (.not d a) s) s r 3
      (fun w => (∀ k, k < 15 → w.getLsbD k = !(s.val a).getLsbD k) ∧ w.getLsbD 15 = (s.val a).getLsbD 15) ∧
    ((s.val a).toNat ≤ 32767 →
      CompletesWriting (exec (.rmem d a) s) s r 3 (fun w => w = s.mem.readWord (s.val a).toNat))

/-- R76: `wmem` completes at every valid address; the bytes outside the stored word's two cells read as before. -/
def Obligations.WmemCompletes : Prop :=
  ∀ (s : State) (a b : Src), (s.val a).toNat ≤ 32767 →
    ∃ t, exec (.wmem a b) s = .next t ∧ (s.mem.wf = true → t.memRead? (s.val a) = some (s.val b)) ∧
      (∀ k, k ≠ 2 * (s.val a).toNat → k ≠ 2 * (s.val a).toNat + 1 → t.mem.readByte k = s.mem.readByte k) ∧
      (∀ j, t.reg j = s.reg j) ∧ t.pc = s.pc + 3#16 ∧ t.stack = s.stack ∧ t.runState = s.runState ∧
      t.fault = s.fault ∧ t.inbuf = s.inbuf ∧ t.outlog = s.outlog

/-- R61, R62, R77, R78: `push` and `call` complete always; `pop` with a register destination and `ret` complete on every
stack that is not empty. The stack is unbounded (DESIGN CHOICE, notes/assumptions/3.md). -/
def Obligations.StackInstructionsComplete : Prop :=
  ∀ (s : State) (v : Src),
    (∃ t, exec (.push v) s = .next t ∧ t.stack = s.stack ++ [s.val v] ∧ t.pc = s.pc + 2#16 ∧
      (∀ j, t.reg j = s.reg j) ∧ SameButRegsPc { s with stack := t.stack } t) ∧
    (∃ t, exec (.call v) s = .next t ∧ t.stack = s.stack ++ [s.pc + 2#16] ∧ t.pc = s.val v ∧
      (∀ j, t.reg j = s.reg j) ∧ SameButRegsPc { s with stack := t.stack } t) ∧
    ∀ l w, s.stack = l ++ [w] →
      (∃ t, exec .ret s = .next t ∧ t.stack = l ∧ t.pc = w ∧
        (∀ j, t.reg j = s.reg j) ∧ SameButRegsPc { s with stack := t.stack } t) ∧
      ∀ d r, d.toNat = 32768 + r.val →
        ∃ t, exec (.pop d) s = .next t ∧ t.stack = l ∧ t.reg r = w ∧ OtherRegsSame s t r ∧ t.pc = s.pc + 2#16 ∧
          SameButRegsPc { s with stack := t.stack } t

/-- R65, R66, R67: the jumps complete always and change the pc alone; of `jt` and `jf` with the same operands, exactly
one jumps. -/
def Obligations.JumpsComplete : Prop :=
  ∀ (s : State) (a v : Src),
    CompletesAtPc (exec (.jmp v) s) s (s.val v) ∧
    CompletesAtPc (exec (.jt a v) s) s (if (s.val a).toNat ≠ 0 then s.val v else s.pc + 3#16) ∧
    CompletesAtPc (exec (.jf a v) s) s (if (s.val a).toNat ≠ 0 then s.pc + 3#16 else s.val v)

/-- R80, R81: `out` completes always; `in` with a register destination completes whenever the buffer is not empty. -/
def Obligations.ConsoleInstructionsComplete : Prop :=
  ∀ s : State,
    (∀ a, ∃ t b, exec (.out a) s = .next t ∧ b.toNat = (s.val a).toNat % 256 ∧ t.outlog = s.outlog ++ [b] ∧
      t.pc = s.pc + 2#16 ∧ (∀ j, t.reg j = s.reg j) ∧ SameButRegsPc { s with outlog := t.outlog } t) ∧
    ∀ d r b bs, d.toNat = 32768 + r.val → s.inbuf = b :: bs →
      ∃ t, exec (.inp d) s = .next t ∧ (t.reg r).toNat = b.toNat ∧ OtherRegsSame s t r ∧ t.inbuf = bs ∧
        t.pc = s.pc + 2#16 ∧ SameButRegsPc { s with inbuf := t.inbuf } t

/-- R85, R86: `halt` and `noop` complete in every state. -/
def Obligations.HaltNoopComplete : Prop :=
  ∀ s : State,
    (∃ t, exec .halt s = .next t ∧ t.runState = .halted ∧ t.pc = s.pc ∧ (∀ j, t.reg j = s.reg j) ∧
      SameButRegsPc { s with runState := t.runState } t) ∧
    CompletesAtPc (exec .noop s) s (s.pc + 1#16)

/-- 44_alu.md R68, R74, 30_encoding.md R52: `add` and `mult` results are always below 32768; adding 32767 subtracts 1 and
multiplying by 32767 negates, modulo 32768; `not` applied twice gives every 16-bit value back. -/
def Obligations.ArithmeticLaws : Prop :=
  ∀ (s : State) (d : Word) (r : RegIx) (a b : Src), d.toNat = 32768 + r.val →
    (∃ t, exec (.add d a b) s = .next t ∧ (t.reg r).toNat < 32768) ∧
    (∃ t, exec (.mult d a b) s = .next t ∧ (t.reg r).toNat < 32768) ∧
    (∃ t, exec (.add d a (.lit 32767#16)) s = .next t ∧ ((t.reg r).toNat + 1) % 32768 = (s.val a).toNat % 32768) ∧
    (∃ t, exec (.mult d a (.lit 32767#16)) s = .next t ∧ ((t.reg r).toNat + (s.val a).toNat) % 32768 = 0) ∧
    (∃ t u, exec (.not d a) s = .next t ∧ exec (.not d (.reg r)) t = .next u ∧ u.reg r = s.val a)
end

