-- ==== Sys2Proof/Laws/Decode.lean ====
section
/-! SUPPORT. What `classify` answers on each of its ranges, the operand words, the bytes of a word, and each shape of
operand roles on a list of words. -/

namespace Sys2Proof

theorem classify_literal {w : Word} (h : w.toNat < 32768) : classify w = .literal w := by
  simp [classify, h]

theorem classify_register {w : Word} {i : RegIx} (h : w.toNat = 32768 + i.val) : classify w = .registerRef i := by
  have hi := i.isLt
  have h₁ : ¬ w.toNat < 32768 := by omega
  have h₂ : w.toNat < 32776 := by omega
  rw [classify, if_neg h₁, dif_pos h₂]
  exact congrArg OperandClass.registerRef (Fin.ext (show w.toNat - 32768 = i.val by omega))

theorem classify_invalid {w : Word} (h : 32776 ≤ w.toNat) : classify w = .invalid := by
  have h₁ : ¬ w.toNat < 32768 := by omega
  have h₂ : ¬ w.toNat < 32776 := by omega
  simp [classify, h₁, h₂]

/-- Every word falls under exactly one range (R40). -/
theorem word_cases (w : Word) :
    w.toNat < 32768 ∨ (∃ i : RegIx, w.toNat = 32768 + i.val) ∨ 32776 ≤ w.toNat := by
  by_cases h₁ : w.toNat < 32768
  · exact .inl h₁
  · by_cases h₂ : w.toNat < 32776
    · exact .inr (.inl ⟨⟨w.toNat - 32768, by omega⟩, show w.toNat = 32768 + (w.toNat - 32768) by omega⟩)
    · exact .inr (.inr (by omega))

theorem srcOf?_literal {w : Word} (h : w.toNat < 32768) : srcOf? w = some (.lit w) := by
  simp [srcOf?, classify_literal h]

theorem srcOf?_register {w : Word} {i : RegIx} (h : w.toNat = 32768 + i.val) : srcOf? w = some (.reg i) := by
  simp [srcOf?, classify_register h]

theorem srcOf?_invalid {w : Word} (h : 32776 ≤ w.toNat) : srcOf? w = none := by
  simp [srcOf?, classify_invalid h]

theorem srcOf?_eq_none_iff (w : Word) : srcOf? w = none ↔ 32776 ≤ w.toNat := by
  rcases word_cases w with h | ⟨i, h⟩ | h
  · simp only [srcOf?_literal h, reduceCtorEq, false_iff]; omega
  · have := i.isLt
    simp only [srcOf?_register h, reduceCtorEq, false_iff]; omega
  · simp only [srcOf?_invalid h, true_iff]; omega

/-- A word the decoder accepts in a value role is the word of the operand it gives, and that operand is
well-formed. -/
theorem srcOf?_some {w : Word} {v : Src} (h : srcOf? w = some v) : v.wf = true ∧ v.word = w := by
  rcases word_cases w with e | ⟨i, e⟩ | e
  · obtain rfl := Option.some.inj ((srcOf?_literal e).symm.trans h)
    exact ⟨decide_eq_true e, rfl⟩
  · obtain rfl := Option.some.inj ((srcOf?_register e).symm.trans h)
    refine ⟨rfl, BitVec.eq_of_toNat_eq ?_⟩
    have := i.isLt
    simp only [Src.word, BitVec.toNat_ofNat, e]
    omega
  · rw [srcOf?_invalid e] at h
    cases h

theorem Src.word_reg_toNat (i : RegIx) : (Src.reg i).word.toNat = 32768 + i.val := by
  have := i.isLt
  simp only [Src.word, BitVec.toNat_ofNat]
  omega

/-- The word of a well-formed value operand is accepted and gives the operand back. -/
theorem srcOf?_word {v : Src} (h : v.wf = true) : srcOf? v.word = some v := by
  cases v with
  | lit w => exact srcOf?_literal (of_decide_eq_true h)
  | reg i => exact srcOf?_register (Src.word_reg_toNat i)

@[simp] theorem takeDest_cons (w : Word) (ws : List Word) : takeDest (w :: ws) = .ok (w, ws) := rfl

theorem takeValue_cons_some {w : Word} {v : Src} (h : srcOf? w = some v) (ws : List Word) :
    takeValue (w :: ws) = .ok (v, ws) := by
  simp [takeValue, h]

theorem takeValue_cons_none {w : Word} (h : srcOf? w = none) (ws : List Word) :
    takeValue (w :: ws) = .error .badOperand := by
  simp [takeValue, h]

/-- Everything `takeDest` can accept. -/
theorem takeDest_ok {ws r : List Word} {d : Word} (h : takeDest ws = .ok (d, r)) : ws = d :: r := by
  cases ws with
  | nil => simp [takeDest] at h
  | cons w ws => simpa using h

/-- Everything `takeValue` can accept. -/
theorem takeValue_ok {ws r : List Word} {v : Src} (h : takeValue ws = .ok (v, r)) :
    ∃ w, ws = w :: r ∧ srcOf? w = some v := by
  cases ws with
  | nil => simp [takeValue] at h
  | cons w ws =>
    cases e : srcOf? w with
    | none => simp [takeValue, e] at h
    | some u =>
      obtain ⟨rfl, rfl⟩ : u = v ∧ ws = r := by simpa [takeValue, e] using h
      exact ⟨w, rfl, e⟩

/-- Everything the role shape `dest` can accept. -/
theorem rolesD_ok {mk : Word → Instr} {ws r : List Word} {i : Instr} (h : rolesD mk ws = .ok (i, r)) :
    ∃ d, ws = d :: r ∧ i = mk d := by
  unfold rolesD at h
  split at h
  · cases h
  · next d ws₁ e => cases h; exact ⟨d, takeDest_ok e, rfl⟩

/-- Everything the role shape `value` can accept. -/
theorem rolesV_ok {mk : Src → Instr} {ws r : List Word} {i : Instr} (h : rolesV mk ws = .ok (i, r)) :
    ∃ w v, ws = w :: r ∧ srcOf? w = some v ∧ i = mk v := by
  unfold rolesV at h
  split at h
  · cases h
  · next v ws₁ e =>
    cases h
    obtain ⟨w, rfl, hv⟩ := takeValue_ok e
    exact ⟨w, v, rfl, hv, rfl⟩

/-- Everything the role shape `value, value` can accept. -/
theorem rolesVV_ok {mk : Src → Src → Instr} {ws r : List Word} {i : Instr} (h : rolesVV mk ws = .ok (i, r)) :
    ∃ w a w' b, ws = w :: w' :: r ∧ srcOf? w = some a ∧ srcOf? w' = some b ∧ i = mk a b := by
  unfold rolesVV at h
  split at h
  · cases h
  · next a ws₁ e =>
    obtain ⟨w, rfl, ha⟩ := takeValue_ok e
    obtain ⟨w', b, rfl, hb, rfl⟩ := rolesV_ok h
    exact ⟨w, a, w', b, rfl, ha, hb, rfl⟩

/-- Everything the role shape `dest, value` can accept. -/
theorem rolesDV_ok {mk : Word → Src → Instr} {ws r : List Word} {i : Instr} (h : rolesDV mk ws = .ok (i, r)) :
    ∃ d w a, ws = d :: w :: r ∧ srcOf? w = some a ∧ i = mk d a := by
  unfold rolesDV at h
  split at h
  · cases h
  · next d ws₁ e =>
    obtain ⟨w, a, rfl, ha, rfl⟩ := rolesV_ok h
    exact ⟨d, w, a, takeDest_ok e, ha, rfl⟩

/-- Everything the role shape `dest, value, value` can accept. -/
theorem rolesDVV_ok {mk : Word → Src → Src → Instr} {ws r : List Word} {i : Instr}
    (h : rolesDVV mk ws = .ok (i, r)) :
    ∃ d w a w' b, ws = d :: w :: w' :: r ∧ srcOf? w = some a ∧ srcOf? w' = some b ∧ i = mk d a b := by
  unfold rolesDVV at h
  split at h
  · cases h
  · next d ws₁ e =>
    obtain ⟨w, a, w', b, rfl, ha, hb, rfl⟩ := rolesVV_ok h
    exact ⟨d, w, a, w', b, takeDest_ok e, ha, hb, rfl⟩

/-- An opcode word above 21 is rejected, whatever follows it (R46). -/
theorem decode_illegal {w : Word} (h : 21 < w.toNat) (ws : List Word) : decode (w :: ws) = .error .badOpcode := by
  simp only [decode]
  split <;> first | rfl | (exfalso; omega)

/-! ### The bytes of a word -/

/-- A word's two image bytes as a number (spec/20_memory.md R29). -/
theorem wordOfBytes_toNat (lo hi : Byte) : (wordOfBytes lo hi).toNat = lo.toNat + 256 * hi.toNat := by
  have := lo.isLt
  have := hi.isLt
  simp only [wordOfBytes, BitVec.toNat_ofNat]
  omega

theorem lowByte_toNat (w : Word) : (lowByte w).toNat = w.toNat % 256 := by
  simp [lowByte]

theorem highByte_toNat (w : Word) : (highByte w).toNat = w.toNat / 256 := by
  have := w.isLt
  simp only [highByte, BitVec.toNat_ofNat]
  omega

@[simp] theorem wordOfBytes_bytes (w : Word) : wordOfBytes (lowByte w) (highByte w) = w := by
  apply BitVec.eq_of_toNat_eq
  rw [wordOfBytes_toNat, lowByte_toNat, highByte_toNat]
  omega

/-- The bytes of a word are determined by it. -/
theorem wordOfBytes_inj {lo hi lo' hi' : Byte} (h : wordOfBytes lo hi = wordOfBytes lo' hi') : lo = lo' ∧ hi = hi' := by
  have e := congrArg BitVec.toNat h
  rw [wordOfBytes_toNat, wordOfBytes_toNat] at e
  have := lo.isLt
  have := lo'.isLt
  exact ⟨BitVec.eq_of_toNat_eq (by omega), BitVec.eq_of_toNat_eq (by omega)⟩

@[simp] theorem wordsOfBytes_bytesOfWords (ws : List Word) : wordsOfBytes (bytesOfWords ws) = ws := by
  induction ws with
  | nil => rfl
  | cons w ws ih => simp [bytesOfWords, wordsOfBytes, ih]

end Sys2Proof
end

