-- ==== Sys2Proof/Laws/Memory.lean ====
section
/-! SUPPORT. Every memory operation keeps the canonical form; a read after a write to the same place gives what was
written, and a write leaves every other place alone. -/

namespace Sys2Proof.Machine

/-! ### Bytes -/

theorem Memory.readByte_writeByte_other (m : Memory) {k j : Nat} (v : Byte) (h : j ≠ k) :
    (Memory.writeByte m k v).readByte j = m.readByte j := by
  have h' : k ≠ j := fun e => h e.symm
  induction m with
  | nil => by_cases hv : v = 0#8 <;> simp [Memory.writeByte, Memory.readByte, hv, h']
  | cons c rest ih =>
    obtain ⟨a, b⟩ := c
    unfold Memory.writeByte
    split
    · split <;> simp [Memory.readByte, h']
    · split
      · next e => subst e; split <;> simp [Memory.readByte, h']
      · simp [Memory.readByte, ih]

theorem Memory.readByte_below {m : Memory} {lo k : Nat} (h : Memory.wfFrom lo m = true) (hk : k < lo) :
    m.readByte k = 0#8 := by
  induction m generalizing lo with
  | nil => rfl
  | cons c rest ih =>
    obtain ⟨a, b⟩ := c
    simp only [Memory.wfFrom, Bool.and_eq_true, decide_eq_true_eq] at h
    have : a ≠ k := by omega
    simp [Memory.readByte, this, ih h.2 (by omega)]

theorem Memory.wfFrom_mono {m : Memory} {lo lo' : Nat} (h : Memory.wfFrom lo m = true) (hl : lo' ≤ lo) :
    Memory.wfFrom lo' m = true := by
  cases m with
  | nil => rfl
  | cons c rest =>
    obtain ⟨a, b⟩ := c
    simp only [Memory.wfFrom, Bool.and_eq_true, decide_eq_true_eq] at h ⊢
    exact ⟨⟨⟨by omega, h.1.1.2⟩, h.1.2⟩, h.2⟩

theorem Memory.wfFrom_writeByte {m : Memory} {lo k : Nat} (v : Byte) (h : Memory.wfFrom lo m = true)
    (hl : lo ≤ k) (hk : k < 65536) : Memory.wfFrom lo (Memory.writeByte m k v) = true := by
  induction m generalizing lo with
  | nil => by_cases hv : v = 0#8 <;> simp [Memory.writeByte, Memory.wfFrom, hv, hl, hk]
  | cons c rest ih =>
    obtain ⟨a, b⟩ := c
    have h₀ := h
    simp only [Memory.wfFrom, Bool.and_eq_true, decide_eq_true_eq] at h
    obtain ⟨⟨⟨h₁, h₂⟩, h₃⟩, h₄⟩ := h
    unfold Memory.writeByte
    split
    · next hka =>
      split
      · exact h₀
      · next hv =>
        simp only [Memory.wfFrom, Bool.and_eq_true, decide_eq_true_eq]
        exact ⟨⟨⟨hl, hk⟩, hv⟩, ⟨⟨by omega, h₂⟩, h₃⟩, h₄⟩
    · split
      · next e =>
        split
        · exact Memory.wfFrom_mono h₄ (by omega)
        · next hv =>
          simp only [Memory.wfFrom, Bool.and_eq_true, decide_eq_true_eq]
          exact ⟨⟨⟨hl, hk⟩, hv⟩, e ▸ h₄⟩
      · next hne =>
        simp only [Memory.wfFrom, Bool.and_eq_true, decide_eq_true_eq]
        exact ⟨⟨⟨h₁, h₂⟩, h₃⟩, ih h₄ (by omega)⟩

theorem Memory.readByte_writeByte_same {m : Memory} {lo : Nat} (h : Memory.wfFrom lo m = true) (k : Nat) (v : Byte) :
    (Memory.writeByte m k v).readByte k = v := by
  induction m generalizing lo with
  | nil =>
    by_cases hv : v = 0#8
    · simp [Memory.writeByte, hv, Memory.readByte]
    · simp [Memory.writeByte, hv, Memory.readByte]
  | cons c rest ih =>
    obtain ⟨a, b⟩ := c
    have h₀ := h
    simp only [Memory.wfFrom, Bool.and_eq_true, decide_eq_true_eq] at h
    unfold Memory.writeByte
    split
    · next hka =>
      split
      · next hv =>
        have ha : a ≠ k := by omega
        simp [Memory.readByte, ha, hv, Memory.readByte_below h.2 (show k < a + 1 by omega)]
      · simp [Memory.readByte]
    · split
      · next e =>
        split
        · next hv => rw [hv]; exact Memory.readByte_below h.2 (by omega)
        · simp [Memory.readByte]
      · next hne =>
        have ha : a ≠ k := fun e => hne e.symm
        simp [Memory.readByte, ha, ih h.2]

/-! ### Words -/

theorem Memory.wf_writeWord {m : Memory} {a : Nat} (v : Word) (h : m.wf = true) (ha : a < 32768) :
    (m.writeWord a v).wf = true :=
  Memory.wfFrom_writeByte _ (Memory.wfFrom_writeByte _ h (Nat.zero_le _) (by omega)) (Nat.zero_le _) (by omega)

theorem Memory.readByte_writeWord_other (m : Memory) {a k : Nat} (v : Word) (h₁ : k ≠ 2 * a) (h₂ : k ≠ 2 * a + 1) :
    (m.writeWord a v).readByte k = m.readByte k := by
  rw [Memory.writeWord, Memory.readByte_writeByte_other _ _ h₂, Memory.readByte_writeByte_other _ _ h₁]

theorem Memory.readWord_writeWord_same {m : Memory} {a : Nat} (v : Word) (h : m.wf = true) (ha : a < 32768) :
    (m.writeWord a v).readWord a = v := by
  have h₁ : Memory.wfFrom 0 (m.writeByte (2 * a) (lowByte v)) = true :=
    Memory.wfFrom_writeByte _ h (Nat.zero_le _) (by omega)
  rw [Memory.readWord, Memory.writeWord, Memory.readByte_writeByte_same h₁,
    Memory.readByte_writeByte_other _ _ (by omega), Memory.readByte_writeByte_same h, wordOfBytes_bytes]

theorem Memory.readWord_writeWord_other (m : Memory) {a a' : Nat} (v : Word) (h : a' ≠ a) :
    (m.writeWord a v).readWord a' = m.readWord a' := by
  rw [Memory.readWord, Memory.readWord, Memory.readByte_writeWord_other _ _ (by omega) (by omega),
    Memory.readByte_writeWord_other _ _ (by omega) (by omega)]

theorem Memory.wf_writeWords {m : Memory} {p : Nat} (ws : List Word) (h : m.wf = true) :
    (Memory.writeWords m p ws).wf = true := by
  induction ws generalizing m p with
  | nil => exact h
  | cons w ws ih =>
    unfold Memory.writeWords
    split
    · next hp => exact ih (Memory.wf_writeWord w h hp)
    · exact h

theorem Memory.readWord_writeWords_below (m : Memory) {p q : Nat} (ws : List Word) (h : q < p) :
    (Memory.writeWords m p ws).readWord q = m.readWord q := by
  induction ws generalizing m p with
  | nil => rfl
  | cons w ws ih =>
    unfold Memory.writeWords
    split
    · rw [ih _ (by omega), Memory.readWord_writeWord_other _ _ (by omega)]
    · rfl

/-! ### The words a fetch reads -/

@[simp] theorem Memory.readWords_zero (m : Memory) (p : Nat) : m.readWords p 0 = [] := rfl

theorem Memory.readWords_in (m : Memory) {p : Nat} (n : Nat) (h : p < 32768) :
    m.readWords p (n + 1) = m.readWord p :: m.readWords (p + 1) n := by
  simp [Memory.readWords, h]

theorem Memory.readWords_out (m : Memory) {p : Nat} (n : Nat) (h : 32768 ≤ p) : m.readWords p n = [] := by
  cases n with
  | zero => rfl
  | succ n => simp [Memory.readWords, Nat.not_lt.mpr h]

/-! ### The image -/

theorem Memory.wfFrom_ofImage {k lo : Nat} {bs : List Byte} (hl : lo ≤ k) (h : k + bs.length ≤ 65536) :
    Memory.wfFrom lo (Memory.ofImage k bs) = true := by
  induction bs generalizing k lo with
  | nil => rfl
  | cons b bs ih =>
    simp only [List.length_cons] at h
    unfold Memory.ofImage
    split
    · exact ih (by omega) (by omega)
    · next hb =>
      simp only [Memory.wfFrom, Bool.and_eq_true, decide_eq_true_eq]
      exact ⟨⟨⟨hl, by omega⟩, hb⟩, ih (by omega) (by omega)⟩

theorem Memory.readByte_ofImage_below {k j : Nat} (bs : List Byte) (h : j < k) : (Memory.ofImage k bs).readByte j = 0#8 := by
  induction bs generalizing k with
  | nil => rfl
  | cons b bs ih =>
    unfold Memory.ofImage
    split
    · exact ih (by omega)
    · have : k ≠ j := by omega
      simp [Memory.readByte, this, ih (show j < k + 1 by omega)]

/-- The cell at `k + j` of a loaded image is the image's byte `j`, and 0 beyond the image. -/
theorem Memory.readByte_ofImage (k j : Nat) (bs : List Byte) :
    (Memory.ofImage k bs).readByte (k + j) = bs.getD j 0#8 := by
  induction bs generalizing k j with
  | nil => simp [Memory.ofImage, Memory.readByte]
  | cons b bs ih =>
    cases j with
    | zero =>
      by_cases hb : b = 0#8
      · simp [Memory.ofImage, hb, Memory.readByte_ofImage_below]
      · simp [Memory.ofImage, hb, Memory.readByte]
    | succ j =>
      have e : k + (j + 1) = k + 1 + j := by omega
      by_cases hb : b = 0#8
      · simp [Memory.ofImage, hb, e, ih]
      · have : k ≠ k + 1 + j := by omega
        simp [Memory.ofImage, hb, e, ih, Memory.readByte, this]

end Sys2Proof.Machine
end

