-- ==== Sys2Proof/Laws/State.lean ====
section
/-! SUPPORT. One lemma per field per update of the state, true by rfl, so that no proof unfolds a record update; and what
the register accessors and the stack and stream operations answer. -/

namespace Sys2Proof.Machine

/-! ### `setReg` -/

@[simp] theorem State.setReg_x (s : State) (i : RegIx) (v : Word) : (s.setReg i v).x = s.x.set i.val v := rfl
@[simp] theorem State.setReg_pc (s : State) (i : RegIx) (v : Word) : (s.setReg i v).pc = s.pc := rfl
@[simp] theorem State.setReg_stack (s : State) (i : RegIx) (v : Word) : (s.setReg i v).stack = s.stack := rfl
@[simp] theorem State.setReg_mem (s : State) (i : RegIx) (v : Word) : (s.setReg i v).mem = s.mem := rfl
@[simp] theorem State.setReg_runState (s : State) (i : RegIx) (v : Word) : (s.setReg i v).runState = s.runState := rfl
@[simp] theorem State.setReg_fault (s : State) (i : RegIx) (v : Word) : (s.setReg i v).fault = s.fault := rfl
@[simp] theorem State.setReg_inbuf (s : State) (i : RegIx) (v : Word) : (s.setReg i v).inbuf = s.inbuf := rfl
@[simp] theorem State.setReg_outlog (s : State) (i : RegIx) (v : Word) : (s.setReg i v).outlog = s.outlog := rfl

/-! ### `setPc` -/

@[simp] theorem State.setPc_x (s : State) (t : Word) : (s.setPc t).x = s.x := rfl
@[simp] theorem State.setPc_pc (s : State) (t : Word) : (s.setPc t).pc = t := rfl
@[simp] theorem State.setPc_stack (s : State) (t : Word) : (s.setPc t).stack = s.stack := rfl
@[simp] theorem State.setPc_mem (s : State) (t : Word) : (s.setPc t).mem = s.mem := rfl
@[simp] theorem State.setPc_runState (s : State) (t : Word) : (s.setPc t).runState = s.runState := rfl
@[simp] theorem State.setPc_fault (s : State) (t : Word) : (s.setPc t).fault = s.fault := rfl
@[simp] theorem State.setPc_inbuf (s : State) (t : Word) : (s.setPc t).inbuf = s.inbuf := rfl
@[simp] theorem State.setPc_outlog (s : State) (t : Word) : (s.setPc t).outlog = s.outlog := rfl

/-! ### `advance` -/

@[simp] theorem State.advance_x (s : State) (n : Nat) : (s.advance n).x = s.x := rfl
@[simp] theorem State.advance_pc (s : State) (n : Nat) : (s.advance n).pc = s.pc + BitVec.ofNat 16 n := rfl
@[simp] theorem State.advance_stack (s : State) (n : Nat) : (s.advance n).stack = s.stack := rfl
@[simp] theorem State.advance_mem (s : State) (n : Nat) : (s.advance n).mem = s.mem := rfl
@[simp] theorem State.advance_runState (s : State) (n : Nat) : (s.advance n).runState = s.runState := rfl
@[simp] theorem State.advance_fault (s : State) (n : Nat) : (s.advance n).fault = s.fault := rfl
@[simp] theorem State.advance_inbuf (s : State) (n : Nat) : (s.advance n).inbuf = s.inbuf := rfl
@[simp] theorem State.advance_outlog (s : State) (n : Nat) : (s.advance n).outlog = s.outlog := rfl

/-! ### `outByte` -/

@[simp] theorem State.outByte_x (s : State) (b : Byte) : (s.outByte b).x = s.x := rfl
@[simp] theorem State.outByte_pc (s : State) (b : Byte) : (s.outByte b).pc = s.pc := rfl
@[simp] theorem State.outByte_stack (s : State) (b : Byte) : (s.outByte b).stack = s.stack := rfl
@[simp] theorem State.outByte_mem (s : State) (b : Byte) : (s.outByte b).mem = s.mem := rfl
@[simp] theorem State.outByte_runState (s : State) (b : Byte) : (s.outByte b).runState = s.runState := rfl
@[simp] theorem State.outByte_fault (s : State) (b : Byte) : (s.outByte b).fault = s.fault := rfl
@[simp] theorem State.outByte_inbuf (s : State) (b : Byte) : (s.outByte b).inbuf = s.inbuf := rfl
@[simp] theorem State.outByte_outlog (s : State) (b : Byte) : (s.outByte b).outlog = s.outlog ++ [b] := rfl

/-! ### `raise` -/

@[simp] theorem raise_x (c : Cause) (s : State) : (raise c s).x = s.x := rfl
@[simp] theorem raise_pc (c : Cause) (s : State) : (raise c s).pc = s.pc := rfl
@[simp] theorem raise_stack (c : Cause) (s : State) : (raise c s).stack = s.stack := rfl
@[simp] theorem raise_mem (c : Cause) (s : State) : (raise c s).mem = s.mem := rfl
@[simp] theorem raise_runState (c : Cause) (s : State) : (raise c s).runState = .faulted := rfl
@[simp] theorem raise_fault (c : Cause) (s : State) : (raise c s).fault = some { kind := c.kind, cause := c, pc := s.pc, op := s.memRead? s.pc } := rfl
@[simp] theorem raise_inbuf (c : Cause) (s : State) : (raise c s).inbuf = s.inbuf := rfl
@[simp] theorem raise_outlog (c : Cause) (s : State) : (raise c s).outlog = s.outlog := rfl

/-! ### Registers -/

@[simp] theorem State.reg_setReg_same (s : State) (i : RegIx) (v : Word) : (s.setReg i v).reg i = v := by
  simp [State.reg]

@[simp] theorem State.reg_setReg_other (s : State) {i j : RegIx} (v : Word) (h : j ≠ i) :
    (s.setReg i v).reg j = s.reg j := by
  have : i.val ≠ j.val := fun e => h (Fin.ext e.symm)
  simp [State.reg, this]

theorem State.reg_eq_of_x_eq {s t : State} (h : t.x = s.x) (i : RegIx) : t.reg i = s.reg i := by
  simp [State.reg, h]

@[simp] theorem State.reg_setPc (s : State) (t : Word) (i : RegIx) : (s.setPc t).reg i = s.reg i := rfl

@[simp] theorem State.reg_advance (s : State) (n : Nat) (i : RegIx) : (s.advance n).reg i = s.reg i := rfl

@[simp] theorem State.reg_outByte (s : State) (b : Byte) (i : RegIx) : (s.outByte b).reg i = s.reg i := rfl

@[simp] theorem reg_raise (c : Cause) (s : State) (i : RegIx) : (raise c s).reg i = s.reg i := rfl

/-! ### The stack and the input buffer -/

@[simp] theorem State.push?_unbounded (v : Word) (s : State) :
    s.push? none v = some { s with stack := s.stack ++ [v] } := rfl

theorem State.pop?_nil {s : State} (h : s.stack = []) : s.pop? = none := by
  simp [State.pop?, h]

theorem State.pop?_concat {s : State} {l : List Word} {v : Word} (h : s.stack = l ++ [v]) :
    s.pop? = some (v, { s with stack := l }) := by
  simp [State.pop?, h]

/-- Everything `pop?` can answer. -/
theorem State.pop?_cases (s : State) :
    (s.stack = [] ∧ s.pop? = none) ∨
      ∃ l v, s.stack = l ++ [v] ∧ s.pop? = some (v, { s with stack := l }) := by
  rcases List.eq_nil_or_concat s.stack with h | ⟨l, v, h⟩
  · exact .inl ⟨h, State.pop?_nil h⟩
  · rw [List.concat_eq_append] at h
    exact .inr ⟨l, v, h, State.pop?_concat h⟩

/-- Everything `inByte?` can answer. -/
theorem State.inByte?_cases (s : State) :
    (s.inbuf = [] ∧ s.inByte? = none) ∨
      ∃ b bs, s.inbuf = b :: bs ∧ s.inByte? = some (b, { s with inbuf := bs }) := by
  unfold State.inByte?
  cases h : s.inbuf with
  | nil => simp
  | cons b bs => simp

end Sys2Proof.Machine
end

