-- ==== Sys2Proof/Laws/Exec.lean ====
section
/-! SUPPORT. What each meaning answers. `Raises` and `Effect` say once, instruction by instruction, everything an executed
instruction can do; `exec_next_cases` says that this is all of it, and `exec_of_effect`, `exec_of_raises` that each of
it is done. -/

namespace Sys2Proof.Machine

/-! ### Destinations -/

theorem dest?_register {d : Word} {r : RegIx} (h : d.toNat = 32768 + r.val) : dest? d = some r := by
  simp [dest?, classify_register h]

theorem dest?_eq_none {d : Word} (h : d.toNat < 32768 ∨ 32776 ≤ d.toNat) : dest? d = none := by
  rcases h with h | h
  · simp [dest?, classify_literal h]
  · simp [dest?, classify_invalid h]

/-- The register a destination word names, by its range (R42). -/
theorem dest?_eq_some_iff (d : Word) (r : RegIx) : dest? d = some r ↔ d.toNat = 32768 + r.val := by
  refine ⟨fun h => ?_, dest?_register⟩
  rcases word_cases d with e | ⟨i, e⟩ | e
  · rw [dest?_eq_none (.inl e)] at h; cases h
  · rw [dest?_register e] at h; cases h; exact e
  · rw [dest?_eq_none (.inr e)] at h; cases h

theorem dest?_eq_none_iff (d : Word) : dest? d = none ↔ d.toNat < 32768 ∨ 32776 ≤ d.toNat := by
  refine ⟨fun h => ?_, dest?_eq_none⟩
  rcases word_cases d with e | ⟨i, e⟩ | e
  · exact .inl e
  · rw [dest?_register e] at h; cases h
  · exact .inr e

theorem withDest_some {d : Word} {r : RegIx} (h : dest? d = some r) (s : State)
    (body : RegIx → Host.Outcome State Fault Refusal) : withDest d s body = body r := by
  simp [withDest, h]

theorem withDest_none {d : Word} (h : dest? d = none) (s : State)
    (body : RegIx → Host.Outcome State Fault Refusal) : withDest d s body = .next (raise .destNotRegister s) := by
  simp [withDest, h]

theorem writeDest_some {d : Word} {r : RegIx} (h : dest? d = some r) (n : Nat) (v : Word) (s : State) :
    writeDest d n v s = .next ((s.setReg r v).advance n) := withDest_some h s _

theorem writeDest_none {d : Word} (h : dest? d = none) (n : Nat) (v : Word) (s : State) :
    writeDest d n v s = .next (raise .destNotRegister s) := withDest_none h s _

/-! ### The memory primitives -/

theorem State.memRead?_in {s : State} {a : Word} (h : a.toNat < 32768) :
    s.memRead? a = some (s.mem.readWord a.toNat) := by
  simp [State.memRead?, h]

theorem State.memRead?_out {s : State} {a : Word} (h : 32768 ≤ a.toNat) : s.memRead? a = none := by
  simp [State.memRead?, Nat.not_lt.mpr h]

theorem State.memWrite?_in {s : State} {a : Word} (v : Word) (h : a.toNat < 32768) :
    s.memWrite? a v = some { s with mem := s.mem.writeWord a.toNat v } := by
  simp [State.memWrite?, h]

theorem State.memWrite?_out {s : State} {a : Word} (v : Word) (h : 32768 ≤ a.toNat) : s.memWrite? a v = none := by
  simp [State.memWrite?, Nat.not_lt.mpr h]

/-! ### All that an instruction can do -/

/-- The faults of the execute phase, each with its condition (R91 to R94). -/
inductive Raises : Instr → State → Cause → Prop
  | dest {i : Instr} {d : Word} {s : State} (hi : i.destWord? = some d) (hd : dest? d = none) :
      Raises i s .destNotRegister
  | popEmpty {d : Word} {r : RegIx} {s : State} (hd : dest? d = some r) (hs : s.stack = []) :
      Raises (.pop d) s .empty
  | retEmpty {s : State} (hs : s.stack = []) : Raises .ret s .empty
  | modZero {d : Word} {r : RegIx} {a b : Src} {s : State} (hd : dest? d = some r) (hb : (s.val b).toNat = 0) :
      Raises (.mod d a b) s .modZero
  | rmemRange {d : Word} {r : RegIx} {a : Src} {s : State} (hd : dest? d = some r) (ha : 32768 ≤ (s.val a).toNat) :
      Raises (.rmem d a) s .memRange
  | wmemRange {a b : Src} {s : State} (ha : 32768 ≤ (s.val a).toNat) : Raises (.wmem a b) s .memRange

/-- The word an instruction without a check of its own computes for its destination. -/
def plainResult? (s : State) : Instr → Option Word
  | .set _ v => some (s.val v)
  | .eq _ a b => some (truthWord (decide ((s.val a).toNat = (s.val b).toNat)))
  | .gt _ a b => some (truthWord (decide ((s.val b).toNat < (s.val a).toNat)))
  | .add _ a b => some (addWord (s.val a) (s.val b))
  | .mult _ a b => some (multWord (s.val a) (s.val b))
  | .and _ a b => some (andWord (s.val a) (s.val b))
  | .or _ a b => some (orWord (s.val a) (s.val b))
  | .not _ a => some (notWord (s.val a))
  | .halt | .push _ | .pop _ | .jmp _ | .jt _ _ | .jf _ _ | .mod _ _ _ | .rmem _ _ | .wmem _ _ | .call _ | .ret
  | .out _ | .inp _ | .noop => none

/-- The effects of the instructions, each with its condition (R60 to R86). -/
inductive Effect : Instr → State → State → Prop
  | plain {i : Instr} {d : Word} {r : RegIx} {v : Word} {s : State} (hi : i.destWord? = some d) (hd : dest? d = some r)
      (hv : plainResult? s i = some v) : Effect i s ((s.setReg r v).advance i.len)
  | mod {d : Word} {r : RegIx} {a b : Src} {s : State} (hd : dest? d = some r) (hb : (s.val b).toNat ≠ 0) :
      Effect (.mod d a b) s ((s.setReg r (modWord (s.val a) (s.val b))).advance 4)
  | rmem {d : Word} {r : RegIx} {a : Src} {s : State} (hd : dest? d = some r) (ha : (s.val a).toNat < 32768) :
      Effect (.rmem d a) s ((s.setReg r (s.mem.readWord (s.val a).toNat)).advance 3)
  | wmem {a b : Src} {s : State} (ha : (s.val a).toNat < 32768) :
      Effect (.wmem a b) s (({ s with mem := s.mem.writeWord (s.val a).toNat (s.val b) } : State).advance 3)
  | push {v : Src} {s : State} :
      Effect (.push v) s (({ s with stack := s.stack ++ [s.val v] } : State).advance 2)
  | pop {d : Word} {r : RegIx} {l : List Word} {v : Word} {s : State} (hd : dest? d = some r) (hs : s.stack = l ++ [v]) :
      Effect (.pop d) s ((({ s with stack := l } : State).setReg r v).advance 2)
  | call {v : Src} {s : State} :
      Effect (.call v) s (({ s with stack := s.stack ++ [s.pc + 2#16] } : State).setPc (s.val v))
  | ret {l : List Word} {v : Word} {s : State} (hs : s.stack = l ++ [v]) :
      Effect .ret s (({ s with stack := l } : State).setPc v)
  | jmp {v : Src} {s : State} : Effect (.jmp v) s (s.setPc (s.val v))
  | jtTaken {a v : Src} {s : State} (ha : (s.val a).toNat ≠ 0) : Effect (.jt a v) s (s.setPc (s.val v))
  | jtNot {a v : Src} {s : State} (ha : (s.val a).toNat = 0) : Effect (.jt a v) s (s.advance 3)
  | jfTaken {a v : Src} {s : State} (ha : (s.val a).toNat = 0) : Effect (.jf a v) s (s.setPc (s.val v))
  | jfNot {a v : Src} {s : State} (ha : (s.val a).toNat ≠ 0) : Effect (.jf a v) s (s.advance 3)
  | out {a : Src} {s : State} : Effect (.out a) s ((s.outByte ((s.val a).setWidth 8)).advance 2)
  | inp {d : Word} {r : RegIx} {b : Byte} {bs : List Byte} {s : State} (hd : dest? d = some r)
      (hs : s.inbuf = b :: bs) :
      Effect (.inp d) s ((({ s with inbuf := bs } : State).setReg r (b.setWidth 16)).advance 2)
  | halt {s : State} : Effect .halt s { s with runState := .halted }
  | noop {s : State} : Effect .noop s (s.advance 1)

/-- A fault of the execute phase is what the instruction answers. -/
theorem exec_of_raises {i : Instr} {s : State} {c : Cause} (h : Raises i s c) : exec i s = .next (raise c s) := by
  cases h with
  | dest hi hd =>
    cases i <;> simp only [Instr.destWord?, reduceCtorEq, Option.some.injEq] at hi <;> subst hi
    case set => exact writeDest_none hd _ _ _
    case pop => exact withDest_none hd _ _
    case eq => exact writeDest_none hd _ _ _
    case gt => exact writeDest_none hd _ _ _
    case add => exact writeDest_none hd _ _ _
    case mult => exact writeDest_none hd _ _ _
    case mod => exact withDest_none hd _ _
    case and => exact writeDest_none hd _ _ _
    case or => exact writeDest_none hd _ _ _
    case not => exact writeDest_none hd _ _ _
    case rmem => exact withDest_none hd _ _
    case inp => exact withDest_none hd _ _
  | popEmpty hd hs => simp [exec, execPop, withDest_some hd, State.pop?_nil hs]
  | retEmpty hs => simp [exec, execRet, State.pop?_nil hs]
  | modZero hd hb => simp [exec, execMod, withDest_some hd, hb]
  | rmemRange hd ha => simp [exec, execRmem, withDest_some hd, State.memRead?_out ha]
  | wmemRange ha => simp [exec, execWmem, State.memWrite?_out _ ha]

/-- An effect is what the instruction answers. -/
theorem exec_of_effect {i : Instr} {s t : State} (h : Effect i s t) : exec i s = .next t := by
  cases h with
  | plain hi hd hv =>
    cases i <;> simp only [Instr.destWord?, plainResult?, reduceCtorEq, Option.some.injEq] at hi hv <;>
      subst hi <;> subst hv <;> exact writeDest_some hd _ _ _
  | mod hd hb => simp [exec, execMod, withDest_some hd, hb]
  | rmem hd ha => simp [exec, execRmem, withDest_some hd, State.memRead?_in ha]
  | wmem ha => simp [exec, execWmem, State.memWrite?_in _ ha]
  | push => rfl
  | pop hd hs => simp [exec, execPop, withDest_some hd, State.pop?_concat hs]
  | call => rfl
  | ret hs => simp [exec, execRet, State.pop?_concat hs]
  | jmp => rfl
  | jtTaken ha => simp [exec, execJt, isNonzero, ha]
  | jtNot ha => simp [exec, execJt, isNonzero, ha]
  | jfTaken ha => simp [exec, execJf, isNonzero, ha]
  | jfNot ha => simp [exec, execJf, isNonzero, ha]
  | out => rfl
  | inp hd hs => simp [exec, execInp, withDest_some hd, State.inByte?, hs]
  | halt => rfl
  | noop => rfl

/-- The one way an instruction answers no next state: `in` waits for a byte (R82). -/
def Waits (i : Instr) (s : State) : Prop := ∃ d r, i = .inp d ∧ dest? d = some r ∧ s.inbuf = []

theorem exec_of_waits {i : Instr} {s : State} (h : Waits i s) : exec i s = .fault .stalledOnInput := by
  obtain ⟨d, r, rfl, hd, hs⟩ := h
  simp [exec, execInp, withDest_some hd, State.inByte?, hs]

/-- Every instruction in every state raises one of its faults, has its effect, or waits. -/
theorem exec_total (i : Instr) (s : State) : (∃ c, Raises i s c) ∨ (∃ t, Effect i s t) ∨ Waits i s := by
  have split : ∀ d : Word, i.destWord? = some d → (∃ c, Raises i s c) ∨ ∃ r, dest? d = some r := by
    intro d hi
    cases hd : dest? d with
    | none => exact .inl ⟨_, .dest hi hd⟩
    | some r => exact .inr ⟨r, rfl⟩
  cases i with
  | halt => exact .inr (.inl ⟨_, .halt⟩)
  | set d v =>
    rcases split d rfl with h | ⟨r, hd⟩
    · exact .inl h
    · exact .inr (.inl ⟨_, .plain rfl hd rfl⟩)
  | push v => exact .inr (.inl ⟨_, .push⟩)
  | pop d =>
    rcases split d rfl with h | ⟨r, hd⟩
    · exact .inl h
    · rcases s.pop?_cases with ⟨hs, -⟩ | ⟨l, v, hs, -⟩
      · exact .inl ⟨_, .popEmpty hd hs⟩
      · exact .inr (.inl ⟨_, .pop hd hs⟩)
  | eq d a b =>
    rcases split d rfl with h | ⟨r, hd⟩
    · exact .inl h
    · exact .inr (.inl ⟨_, .plain rfl hd rfl⟩)
  | gt d a b =>
    rcases split d rfl with h | ⟨r, hd⟩
    · exact .inl h
    · exact .inr (.inl ⟨_, .plain rfl hd rfl⟩)
  | jmp v => exact .inr (.inl ⟨_, .jmp⟩)
  | jt a v =>
    by_cases ha : (s.val a).toNat = 0
    · exact .inr (.inl ⟨_, .jtNot ha⟩)
    · exact .inr (.inl ⟨_, .jtTaken ha⟩)
  | jf a v =>
    by_cases ha : (s.val a).toNat = 0
    · exact .inr (.inl ⟨_, .jfTaken ha⟩)
    · exact .inr (.inl ⟨_, .jfNot ha⟩)
  | add d a b =>
    rcases split d rfl with h | ⟨r, hd⟩
    · exact .inl h
    · exact .inr (.inl ⟨_, .plain rfl hd rfl⟩)
  | mult d a b =>
    rcases split d rfl with h | ⟨r, hd⟩
    · exact .inl h
    · exact .inr (.inl ⟨_, .plain rfl hd rfl⟩)
  | mod d a b =>
    rcases split d rfl with h | ⟨r, hd⟩
    · exact .inl h
    · by_cases hb : (s.val b).toNat = 0
      · exact .inl ⟨_, .modZero hd hb⟩
      · exact .inr (.inl ⟨_, .mod hd hb⟩)
  | and d a b =>
    rcases split d rfl with h | ⟨r, hd⟩
    · exact .inl h
    · exact .inr (.inl ⟨_, .plain rfl hd rfl⟩)
  | or d a b =>
    rcases split d rfl with h | ⟨r, hd⟩
    · exact .inl h
    · exact .inr (.inl ⟨_, .plain rfl hd rfl⟩)
  | not d a =>
    rcases split d rfl with h | ⟨r, hd⟩
    · exact .inl h
    · exact .inr (.inl ⟨_, .plain rfl hd rfl⟩)
  | rmem d a =>
    rcases split d rfl with h | ⟨r, hd⟩
    · exact .inl h
    · by_cases ha : (s.val a).toNat < 32768
      · exact .inr (.inl ⟨_, .rmem hd ha⟩)
      · exact .inl ⟨_, .rmemRange hd (Nat.le_of_not_lt ha)⟩
  | wmem a b =>
    by_cases ha : (s.val a).toNat < 32768
    · exact .inr (.inl ⟨_, .wmem ha⟩)
    · exact .inl ⟨_, .wmemRange (Nat.le_of_not_lt ha)⟩
  | call v => exact .inr (.inl ⟨_, .call⟩)
  | ret =>
    rcases s.pop?_cases with ⟨hs, -⟩ | ⟨l, v, hs, -⟩
    · exact .inl ⟨_, .retEmpty hs⟩
    · exact .inr (.inl ⟨_, .ret hs⟩)
  | out a => exact .inr (.inl ⟨_, .out⟩)
  | inp d =>
    rcases split d rfl with h | ⟨r, hd⟩
    · exact .inl h
    · rcases s.inByte?_cases with ⟨hs, -⟩ | ⟨b, bs, hs, -⟩
      · exact .inr (.inr ⟨d, r, rfl, hd, hs⟩)
      · exact .inr (.inl ⟨_, .inp hd hs⟩)
  | noop => exact .inr (.inl ⟨_, .noop⟩)

/-- Everything that `exec` answering a next state can mean. -/
theorem exec_next_cases {i : Instr} {s t : State} (h : exec i s = .next t) :
    (∃ c, Raises i s c ∧ t = raise c s) ∨ Effect i s t := by
  rcases exec_total i s with ⟨c, hc⟩ | ⟨u, hu⟩ | hw
  · rw [exec_of_raises hc] at h
    cases h
    exact .inl ⟨c, hc, rfl⟩
  · rw [exec_of_effect hu] at h
    cases h
    exact .inr hu
  · rw [exec_of_waits hw] at h
    cases h

/-- `exec` stops only on a waiting `in`, and never refuses. -/
theorem exec_stops {i : Instr} {s : State} {f : Fault} (h : exec i s = .fault f) :
    f = .stalledOnInput ∧ Waits i s := by
  rcases exec_total i s with ⟨c, hc⟩ | ⟨u, hu⟩ | hw
  · rw [exec_of_raises hc] at h
    cases h
  · rw [exec_of_effect hu] at h
    cases h
  · rw [exec_of_waits hw] at h
    cases h
    exact ⟨rfl, hw⟩

theorem exec_not_refused (i : Instr) (s : State) (r : Refusal) : exec i s ≠ .refused r := by
  rcases exec_total i s with ⟨c, hc⟩ | ⟨u, hu⟩ | hw
  · simp [exec_of_raises hc]
  · simp [exec_of_effect hu]
  · simp [exec_of_waits hw]

/-- An effect leaves the core out of `Faulted` unless it was there before. -/
theorem Effect.runState {i : Instr} {s t : State} (h : Effect i s t) :
    (i = .halt ∧ t.runState = .halted) ∨ (i ≠ .halt ∧ t.runState = s.runState) := by
  cases h with
  | halt => exact .inl ⟨rfl, rfl⟩
  | plain hi hd hv =>
    refine .inr ⟨?_, rfl⟩
    rintro rfl
    cases hi
  | _ => exact .inr ⟨by simp, rfl⟩

/-- No effect writes the fault record. -/
theorem Effect.fault {i : Instr} {s t : State} (h : Effect i s t) : t.fault = s.fault := by
  cases h <;> rfl

end Sys2Proof.Machine
end

