-- ==== Sys2Proof/Laws/PerInstr.lean ====
section
/-! SUPPORT. Facts about every instruction as syntax, one lemma per constructor. -/

namespace Sys2Proof.Laws.EncodeShape

/-- The words of an instruction are as many as the `len` column of the opcode table says, and a destination word stands
raw as the second of them (spec/30_encoding.md R43, R44). -/
def Statement (i : Instr) : Prop :=
  (encode i).length = i.len ∧ ∀ d, i.destWord? = some d → (encode i)[1]? = some d

theorem halt : Statement .halt := ⟨rfl, fun _ h => nomatch h⟩

theorem set (d : Word) (a : Src) : Statement (.set d a) := ⟨rfl, fun _ h => congrArg some (Option.some.inj h)⟩

theorem push (a : Src) : Statement (.push a) := ⟨rfl, fun _ h => nomatch h⟩

theorem pop (d : Word) : Statement (.pop d) := ⟨rfl, fun _ h => congrArg some (Option.some.inj h)⟩

theorem eq (d : Word) (a b : Src) : Statement (.eq d a b) := ⟨rfl, fun _ h => congrArg some (Option.some.inj h)⟩

theorem gt (d : Word) (a b : Src) : Statement (.gt d a b) := ⟨rfl, fun _ h => congrArg some (Option.some.inj h)⟩

theorem jmp (a : Src) : Statement (.jmp a) := ⟨rfl, fun _ h => nomatch h⟩

theorem jt (a b : Src) : Statement (.jt a b) := ⟨rfl, fun _ h => nomatch h⟩

theorem jf (a b : Src) : Statement (.jf a b) := ⟨rfl, fun _ h => nomatch h⟩

theorem add (d : Word) (a b : Src) : Statement (.add d a b) := ⟨rfl, fun _ h => congrArg some (Option.some.inj h)⟩

theorem mult (d : Word) (a b : Src) : Statement (.mult d a b) := ⟨rfl, fun _ h => congrArg some (Option.some.inj h)⟩

theorem mod (d : Word) (a b : Src) : Statement (.mod d a b) := ⟨rfl, fun _ h => congrArg some (Option.some.inj h)⟩

theorem and (d : Word) (a b : Src) : Statement (.and d a b) := ⟨rfl, fun _ h => congrArg some (Option.some.inj h)⟩

theorem or (d : Word) (a b : Src) : Statement (.or d a b) := ⟨rfl, fun _ h => congrArg some (Option.some.inj h)⟩

theorem not (d : Word) (a : Src) : Statement (.not d a) := ⟨rfl, fun _ h => congrArg some (Option.some.inj h)⟩

theorem rmem (d : Word) (a : Src) : Statement (.rmem d a) := ⟨rfl, fun _ h => congrArg some (Option.some.inj h)⟩

theorem wmem (a b : Src) : Statement (.wmem a b) := ⟨rfl, fun _ h => nomatch h⟩

theorem call (a : Src) : Statement (.call a) := ⟨rfl, fun _ h => nomatch h⟩

theorem ret : Statement .ret := ⟨rfl, fun _ h => nomatch h⟩

theorem out (a : Src) : Statement (.out a) := ⟨rfl, fun _ h => nomatch h⟩

theorem inp (d : Word) : Statement (.inp d) := ⟨rfl, fun _ h => congrArg some (Option.some.inj h)⟩

theorem noop : Statement .noop := ⟨rfl, fun _ h => nomatch h⟩

end Sys2Proof.Laws.EncodeShape
end

