-- ==== Sys2Proof/Laws/Step.lean ====
section
/-! SUPPORT. Everything a step can do, what the decoder makes of the words at the pc, and that `withFetchWord` places the
instruction it is given. -/

namespace Sys2Proof.Machine

theorem step_halted {s : State} (h : s.runState = .halted) : step s = .fault .alreadyHalted := by
  simp [step, h]

theorem step_faulted {s : State} (h : s.runState = .faulted) : step s = .fault .alreadyFaulted := by
  simp [step, h]

theorem step_decode_ok {s : State} {i : Instr} {rest : List Word} (hr : s.runState = .running)
    (hd : s.decodeAt = .ok (i, rest)) : step s = exec i s := by
  simp [step, hr, hd]

theorem step_decode_error {s : State} {e : DecodeError} (hr : s.runState = .running) (hd : s.decodeAt = .error e) :
    step s = .next (raise (causeOfDecodeError e) s) := by
  simp [step, hr, hd]

/-- Everything that `step` answering a next state can mean. -/
theorem step_next_cases {s t : State} (h : step s = .next t) :
    s.runState = .running ∧
      ((∃ e, s.decodeAt = .error e ∧ t = raise (causeOfDecodeError e) s) ∨
        ∃ i rest, s.decodeAt = .ok (i, rest) ∧ ((∃ c, Raises i s c ∧ t = raise c s) ∨ Effect i s t)) := by
  cases hr : s.runState with
  | halted => rw [step_halted hr] at h; cases h
  | faulted => rw [step_faulted hr] at h; cases h
  | running =>
    refine ⟨rfl, ?_⟩
    cases hd : s.decodeAt with
    | error e =>
      rw [step_decode_error hr hd] at h
      cases h
      exact .inl ⟨e, rfl, rfl⟩
    | ok p =>
      obtain ⟨i, rest⟩ := p
      rw [step_decode_ok hr hd] at h
      exact .inr ⟨i, rest, rfl, exec_next_cases h⟩

/-- Everything that `step` answering a stop can mean. -/
theorem step_fault_cases {s : State} {f : Fault} (h : step s = .fault f) :
    (s.runState = .halted ∧ f = .alreadyHalted) ∨ (s.runState = .faulted ∧ f = .alreadyFaulted) ∨
      (s.runState = .running ∧ f = .stalledOnInput ∧ ∃ i rest, s.decodeAt = .ok (i, rest) ∧ Waits i s) := by
  cases hr : s.runState with
  | halted => rw [step_halted hr] at h; cases h; exact .inl ⟨rfl, rfl⟩
  | faulted => rw [step_faulted hr] at h; cases h; exact .inr (.inl ⟨rfl, rfl⟩)
  | running =>
    cases hd : s.decodeAt with
    | error e => rw [step_decode_error hr hd] at h; cases h
    | ok p =>
      obtain ⟨i, rest⟩ := p
      rw [step_decode_ok hr hd] at h
      obtain ⟨rfl, hw⟩ := exec_stops h
      exact .inr (.inr ⟨rfl, rfl, i, rest, rfl, hw⟩)

theorem raise_ne_of_running {s : State} (hr : s.runState = .running) (c : Cause) : raise c s ≠ s := fun h => by
  have := congrArg State.runState h
  simp [hr] at this

/-- The cause of a fault can be read back from the record. -/
theorem raise_injective {s : State} {c c' : Cause} (h : raise c s = raise c' s) : c = c' := by
  have e := congrArg State.fault h
  simpa using (congrArg (Option.map FaultRecord.cause) e)

/-! ### Decoding the words at the pc -/

theorem State.fetchWindow_in {s : State} (h : s.pc.toNat < 32768) :
    s.fetchWindow = s.mem.readWord s.pc.toNat :: s.mem.readWords (s.pc.toNat + 1) 3 :=
  Memory.readWords_in _ _ h

theorem State.decodeAt_out {s : State} (h : 32768 ≤ s.pc.toNat) : s.decodeAt = .error .outOfWords := by
  simp [State.decodeAt, State.fetchWindow, Memory.readWords_out _ _ h, decode]

/-- One destination word read from memory. -/
theorem takeDest_readWords (m : Memory) (p n : Nat) :
    takeDest (m.readWords p (n + 1)) =
      if p < 32768 then .ok (m.readWord p, m.readWords (p + 1) n) else .error .outOfWords := by
  by_cases h : p < 32768 <;> simp [Memory.readWords, h, takeDest]

/-- One value word read from memory. -/
theorem takeValue_readWords (m : Memory) (p n : Nat) :
    takeValue (m.readWords p (n + 1)) =
      if p < 32768 then
        (match srcOf? (m.readWord p) with
          | some v => .ok (v, m.readWords (p + 1) n)
          | none => .error .badOperand)
      else .error .outOfWords := by
  by_cases h : p < 32768
  · cases e : srcOf? (m.readWord p) <;> simp [Memory.readWords, h, takeValue, e]
  · simp [Memory.readWords, h, takeValue]

/-! ### Placing an instruction -/

@[simp] theorem State.withFetchWord_runState (s : State) (nbits w : Nat) :
    (s.withFetchWord nbits w).runState = s.runState := rfl

@[simp] theorem State.withFetchWord_pc (s : State) (nbits w : Nat) : (s.withFetchWord nbits w).pc = s.pc := rfl

@[simp] theorem State.withFetchWord_x (s : State) (nbits w : Nat) : (s.withFetchWord nbits w).x = s.x := rfl

theorem State.withFetchWord_wf {s : State} (nbits w : Nat) (h : s.mem.wf = true) :
    (s.withFetchWord nbits w).mem.wf = true := Memory.wf_writeWords _ h

/-- The words placed at an address with room for them are the words read back from it. -/
theorem Memory.readWords_writeWords {m : Memory} {p : Nat} (ws : List Word) (hm : m.wf = true)
    (hp : p + ws.length ≤ 32768) : (Memory.writeWords m p ws).readWords p ws.length = ws := by
  induction ws generalizing m p with
  | nil => rfl
  | cons w ws ih =>
    simp only [List.length_cons] at hp ⊢
    have h : p < 32768 := by omega
    have e : Memory.writeWords m p (w :: ws) = Memory.writeWords (m.writeWord p w) (p + 1) ws := by
      simp [Memory.writeWords, h]
    rw [e, Memory.readWords_in _ _ h, Memory.readWord_writeWords_below _ _ (Nat.lt_succ_self p),
      Memory.readWord_writeWord_same w hm h, ih (Memory.wf_writeWord w hm h) (by omega)]

end Sys2Proof.Machine
end

