-- ==== Sys2Proof/Laws/Run.lean ====
section
/-! SUPPORT. Runs of several steps, one step at a time; what `stalled` means; and the run of the core with its host, one
move at a time. -/

namespace Sys2Proof.Machine

theorem run_next_of (M : Host.Core) (n : Nat) (s t : M.State) (h : M.step s = .next t) :
    Host.Core.run M (n + 1) s = Host.Core.run M n t := by
  rw [Host.Core.run, h]

theorem run_fault_of (M : Host.Core) (n : Nat) (s : M.State) (f : M.Fault) (h : M.step s = .fault f) :
    Host.Core.run M (n + 1) s = .fault f := by
  rw [Host.Core.run, h]

theorem run_refused_of (M : Host.Core) (n : Nat) (s : M.State) (r : M.Refusal) (h : M.step s = .refused r) :
    Host.Core.run M (n + 1) s = .refused r := by
  rw [Host.Core.run, h]

theorem run_zero (s : State) : Host.Core.run core 0 s = .next s := rfl

/-- A run whose first step exists goes on from its next state. -/
theorem run_next {s t : State} (n : Nat) (h : step s = .next t) :
    Host.Core.run core (n + 1) s = Host.Core.run core n t := run_next_of core n s t h

/-- A run whose first step does not exist has stopped. -/
theorem run_fault {s : State} {f : Fault} (n : Nat) (h : step s = .fault f) :
    Host.Core.run core (n + 1) s = .fault f := run_fault_of core n s f h

theorem stalled_iff (s : State) : s.stalled = true ↔ step s = .fault .stalledOnInput := by
  unfold State.stalled
  cases h : step s with
  | next t => simp
  | refused r => simp
  | fault f => cases f <;> simp

/-- Everything that a refill can do (R82, R110). -/
theorem refill_cases {line : List Byte} {s t : State} (h : State.refill line s = some t) :
    step s = .fault .stalledOnInput ∧ line ≠ [] ∧ t = { s with inbuf := s.inbuf ++ line } := by
  unfold State.refill at h
  split at h
  · next c => cases h; exact ⟨(stalled_iff s).1 c.1, c.2, rfl⟩
  · cases h

/-! ### The run of the core with its host -/

theorem move_of_next {s t : State} (lines : List (List Byte)) (h : step s = .next t) :
    s.move lines = some (lines, t) := by
  simp [State.move, h]

theorem move_of_halted {s : State} (lines : List (List Byte)) (h : s.runState = .halted) : s.move lines = none := by
  simp [State.move, step_halted h]

theorem move_of_faulted {s : State} (lines : List (List Byte)) (h : s.runState = .faulted) : s.move lines = none := by
  simp [State.move, step_faulted h]

theorem move_of_stalled_nil {s : State} (h : step s = .fault .stalledOnInput) : s.move [] = none := by
  simp [State.move, h]

theorem move_of_stalled_cons {s : State} (line : List Byte) (rest : List (List Byte))
    (h : step s = .fault .stalledOnInput) :
    s.move (line :: rest) = if line = [] then none else some (rest, { s with inbuf := s.inbuf ++ line }) := by
  have hs := (stalled_iff s).2 h
  by_cases hl : line = [] <;> simp [State.move, h, State.refill, hs, hl]

/-- Everything that a move can be: a step of the core, or a refill with the first of the lines. -/
theorem move_cases {s t : State} {lines rest : List (List Byte)} (h : s.move lines = some (rest, t)) :
    (step s = .next t ∧ rest = lines) ∨ ∃ line, lines = line :: rest ∧ s.refill line = some t := by
  cases hs : step s with
  | next u => rw [move_of_next lines hs] at h; cases h; exact .inl ⟨rfl, rfl⟩
  | refused r => simp [State.move, hs] at h
  | fault f =>
    cases f with
    | alreadyHalted => simp [State.move, hs] at h
    | alreadyFaulted => simp [State.move, hs] at h
    | stalledOnInput =>
      cases lines with
      | nil => simp [State.move, hs] at h
      | cons line ls =>
        simp only [State.move, hs, Option.map_eq_some_iff] at h
        obtain ⟨u, hu, e⟩ := h
        cases e
        exact .inr ⟨line, rfl, hu⟩

theorem runHost_zero (lines : List (List Byte)) (s : State) : s.runHost 0 lines = (lines, s) := rfl

/-- A run whose first move exists goes on from there. -/
theorem runHost_move {s t : State} {lines rest : List (List Byte)} (n : Nat) (h : s.move lines = some (rest, t)) :
    s.runHost (n + 1) lines = t.runHost n rest := by
  simp [State.runHost, h]

/-- A run without a first move stays where it is. -/
theorem runHost_stop {s : State} {lines : List (List Byte)} (n : Nat) (h : s.move lines = none) :
    s.runHost n lines = (lines, s) := by
  cases n <;> simp [State.runHost, h]

/-- A longer run is the shorter one, gone on with. -/
theorem runHost_add (m n : Nat) (lines : List (List Byte)) (s : State) :
    s.runHost (m + n) lines = (s.runHost m lines).2.runHost n (s.runHost m lines).1 := by
  induction m generalizing s lines with
  | zero => simp [State.runHost]
  | succ m ih =>
    rw [Nat.add_right_comm]
    cases h : s.move lines with
    | none => simp [runHost_stop _ h]
    | some p => obtain ⟨rest, t⟩ := p; rw [runHost_move _ h, runHost_move _ h, ih]

/-- What steps and refills keep, runs keep. -/
theorem runHost_keeps {P : State → Prop} (hstep : ∀ s t, P s → step s = .next t → P t)
    (hfill : ∀ s line t, P s → s.refill line = some t → P t) (n : Nat) (lines : List (List Byte)) {s : State} (h : P s) :
    P (s.runHost n lines).2 := by
  induction n generalizing s lines with
  | zero => exact h
  | succ n ih =>
    cases hm : s.move lines with
    | none => rw [runHost_stop _ hm]; exact h
    | some p =>
      obtain ⟨rest, t⟩ := p
      rw [runHost_move _ hm]
      rcases move_cases hm with ⟨hs, -⟩ | ⟨line, -, hf⟩
      · exact ih rest (hstep s t h hs)
      · exact ih rest (hfill s line t h hf)

/-- Steps alone are the run of a host that is never asked. -/
theorem runHost_of_run {n : Nat} {s t : State} (lines : List (List Byte)) (h : Host.Core.run core n s = .next t) :
    s.runHost n lines = (lines, t) := by
  induction n generalizing s with
  | zero => cases h; rfl
  | succ n ih =>
    cases hs : step s with
    | next u => rw [run_next n hs] at h; rw [runHost_move n (move_of_next lines hs), ih h]
    | fault f => rw [run_fault n hs] at h; cases h
    | refused r => rw [run_refused_of core n s r hs] at h; cases h

end Sys2Proof.Machine
end

