-- ==== Sys2Proof/Tests/Slice0.lean ====
section
/-! SUPPORT. The model's own tests. Expected values are those of spec/95_test_vectors.md (the vector's id stands in the
docstring) or of the opcode table R43; the second half shows, statement by statement, a state and operands that meet
its hypotheses. -/

open Sys2Proof Sys2Proof.Machine Sys2Proof.Claim

namespace Sys2Proof.Tests

/-! ## Helpers -/

/-- The reset state with `ws` in memory from address `p` on and the pc at `p`. -/
def bootAt (p : Nat) (ws : List Word) : State :=
  { State.afterReset Config.resetRegs (Memory.writeWords [] p ws) with pc := BitVec.ofNat 16 p }

/-- The reset state with `ws` in memory from address 0 on. -/
def boot (ws : List Word) : State := bootAt 0 ws

/-- Something of the state after one step, where the step answers one. -/
def after {α : Type} (s : State) (f : State → α) : Option α :=
  match step s with
  | .next t => some (f t)
  | .fault _ => none
  | .refused _ => none

/-- What a faulting step leaves: the run state, the record and the pc. -/
def faulted (s : State) : Option (RunState × Option FaultRecord × Word) :=
  after s fun t => (t.runState, t.fault, t.pc)

/-- The run state, record and pc that a vector marked `F:` expects. -/
def expectF (k : FaultKind) (c : Cause) (p : Word) (op : Option Word) : Option (RunState × Option FaultRecord × Word) :=
  some (.faulted, some { kind := k, cause := c, pc := p, op := op }, p)

/-! ## WellFormed refuses a literal above 32767 in every value slot -/

theorem test_wf_refuses_move : Instr.wf (.set 32768#16 (.lit 32768#16)) = false ∧
    Instr.wf (.push (.lit 40000#16)) = false := by decide
theorem test_wf_refuses_eq : Instr.wf (.eq 32768#16 (.lit 32768#16) (.lit 0#16)) = false ∧
    Instr.wf (.eq 32768#16 (.lit 0#16) (.lit 32768#16)) = false := by decide
theorem test_wf_refuses_gt : Instr.wf (.gt 32768#16 (.lit 32768#16) (.lit 0#16)) = false ∧
    Instr.wf (.gt 32768#16 (.lit 0#16) (.lit 32768#16)) = false := by decide
theorem test_wf_refuses_jmp : Instr.wf (.jmp (.lit 32768#16)) = false := by decide
theorem test_wf_refuses_jt : Instr.wf (.jt (.lit 32768#16) (.lit 0#16)) = false ∧
    Instr.wf (.jt (.lit 0#16) (.lit 65535#16)) = false := by decide
theorem test_wf_refuses_jf : Instr.wf (.jf (.lit 32768#16) (.lit 0#16)) = false ∧
    Instr.wf (.jf (.lit 0#16) (.lit 65535#16)) = false := by decide
theorem test_wf_refuses_add : Instr.wf (.add 32768#16 (.lit 32768#16) (.lit 0#16)) = false ∧
    Instr.wf (.add 32768#16 (.lit 0#16) (.lit 32768#16)) = false := by decide
theorem test_wf_refuses_mult : Instr.wf (.mult 32768#16 (.lit 32768#16) (.lit 0#16)) = false ∧
    Instr.wf (.mult 32768#16 (.lit 0#16) (.lit 32768#16)) = false := by decide
theorem test_wf_refuses_mod : Instr.wf (.mod 32768#16 (.lit 32768#16) (.lit 0#16)) = false ∧
    Instr.wf (.mod 32768#16 (.lit 0#16) (.lit 32768#16)) = false := by decide
theorem test_wf_refuses_and : Instr.wf (.and 32768#16 (.lit 32768#16) (.lit 0#16)) = false ∧
    Instr.wf (.and 32768#16 (.lit 0#16) (.lit 32768#16)) = false := by decide
theorem test_wf_refuses_or : Instr.wf (.or 32768#16 (.lit 32768#16) (.lit 0#16)) = false ∧
    Instr.wf (.or 32768#16 (.lit 0#16) (.lit 32768#16)) = false := by decide
theorem test_wf_refuses_not : Instr.wf (.not 32768#16 (.lit 32768#16)) = false := by decide
theorem test_wf_refuses_rmem : Instr.wf (.rmem 32768#16 (.lit 32768#16)) = false := by decide
theorem test_wf_refuses_wmem : Instr.wf (.wmem (.lit 32768#16) (.lit 0#16)) = false ∧
    Instr.wf (.wmem (.lit 0#16) (.lit 32768#16)) = false := by decide
theorem test_wf_refuses_call : Instr.wf (.call (.lit 32768#16)) = false := by decide
theorem test_wf_refuses_out : Instr.wf (.out (.lit 32768#16)) = false := by decide
theorem test_wf_accepts_bounds : Instr.wf (.add 0#16 (.lit 32767#16) (.reg 7)) = true := by decide

/-! ## Every row of the opcode table, its words written out from R43 and R40 -/

theorem test_decode_halt : decode [0#16] = .ok (.halt, []) := rfl
theorem test_decode_set : decode [1#16, 32769#16, 1234#16] = .ok (.set 32769#16 (.lit 1234#16), []) := rfl
theorem test_decode_push : decode [2#16, 32770#16] = .ok (.push (.reg 2), []) := rfl
theorem test_decode_pop : decode [3#16, 32771#16] = .ok (.pop 32771#16, []) := rfl
theorem test_decode_eq :
    decode [4#16, 32768#16, 32769#16, 7#16] = .ok (.eq 32768#16 (.reg 1) (.lit 7#16), []) := rfl
theorem test_decode_gt :
    decode [5#16, 32768#16, 32767#16, 32775#16] = .ok (.gt 32768#16 (.lit 32767#16) (.reg 7), []) := rfl
theorem test_decode_jmp : decode [6#16, 100#16] = .ok (.jmp (.lit 100#16), []) := rfl
theorem test_decode_jt : decode [7#16, 32768#16, 50#16] = .ok (.jt (.reg 0) (.lit 50#16), []) := rfl
theorem test_decode_jf : decode [8#16, 32769#16, 17#16] = .ok (.jf (.reg 1) (.lit 17#16), []) := rfl
theorem test_decode_add :
    decode [9#16, 32768#16, 5#16, 10#16] = .ok (.add 32768#16 (.lit 5#16) (.lit 10#16), []) := rfl
theorem test_decode_mult :
    decode [10#16, 32769#16, 32768#16, 300#16] = .ok (.mult 32769#16 (.reg 0) (.lit 300#16), []) := rfl
theorem test_decode_mod :
    decode [11#16, 5#16, 1#16, 0#16] = .ok (.mod 5#16 (.lit 1#16) (.lit 0#16), []) := rfl
theorem test_decode_and :
    decode [12#16, 32769#16, 32768#16, 32767#16] = .ok (.and 32769#16 (.reg 0) (.lit 32767#16), []) := rfl
theorem test_decode_or :
    decode [13#16, 32768#16, 256#16, 32774#16] = .ok (.or 32768#16 (.lit 256#16) (.reg 6), []) := rfl
theorem test_decode_not : decode [14#16, 32768#16, 1#16] = .ok (.not 32768#16 (.lit 1#16), []) := rfl
theorem test_decode_rmem : decode [15#16, 32768#16, 32769#16] = .ok (.rmem 32768#16 (.reg 1), []) := rfl
theorem test_decode_wmem : decode [16#16, 20#16, 32770#16] = .ok (.wmem (.lit 20#16) (.reg 2), []) := rfl
theorem test_decode_call : decode [17#16, 10#16] = .ok (.call (.lit 10#16), []) := rfl
theorem test_decode_ret : decode [18#16, 0#16] = .ok (.ret, [0#16]) := rfl
/-- R50: the bytes of `out 65`. -/
theorem test_decode_out : decodeBytes [0x13#8, 0x00#8, 0x41#8, 0x00#8] = .ok (.out (.lit 65#16), []) := rfl
theorem test_decode_in : decode [20#16, 32768#16] = .ok (.inp 32768#16, []) := rfl
theorem test_decode_noop : decode [21#16] = .ok (.noop, []) := rfl
/-- R50: the bytes of `add r0 5 10`. -/
theorem test_encode_bytes_add : encodeBytes (.add 32768#16 (.lit 5#16) (.lit 10#16)) =
    [0x09#8, 0x00#8, 0x00#8, 0x80#8, 0x05#8, 0x00#8, 0x0A#8, 0x00#8] := by decide
/-- The same instruction as the table numbers its bits: the second word is bits 31..16. -/
theorem test_decode_table_word : decodeTableWord 64 0x000A000580000009 =
    some (.add 32768#16 (.lit 5#16) (.lit 10#16)) ∧ decodeTableWord 16 9 = some (.add 0#16 (.lit 0#16) (.lit 0#16)) ∧
    decodeTableWord 16 22 = none := by decide
/-- R46, R47, R49: what is no instruction. -/
theorem test_decode_rejects : decode [22#16, 0#16] = .error .badOpcode ∧ decode [32768#16] = .error .badOpcode ∧
    decode [2#16, 32776#16] = .error .badOperand ∧ decode [4#16, 32768#16, 40000#16] = .error .badOperand ∧
    decode [6#16] = .error .outOfWords := ⟨rfl, rfl, rfl, rfl, rfl⟩
/-- S1. -/
theorem test_classify : classify 0#16 = .literal 0#16 ∧ classify 32767#16 = .literal 32767#16 ∧
    classify 32768#16 = .registerRef 0 ∧ classify 32775#16 = .registerRef 7 ∧ classify 32776#16 = .invalid ∧
    classify 65535#16 = .invalid := by decide

/-! ## One step each, from the vectors -/

/-- V1. -/
theorem test_set : after (boot [1#16, 32769#16, 1234#16]) (fun t => (t.reg 1, t.pc)) = some (1234#16, 3#16) := by decide
/-- V2. -/
theorem test_set_verbatim : after ((boot [1#16, 32775#16, 32768#16]).setReg 0 40000#16) (fun t => (t.reg 7, t.pc)) =
    some (40000#16, 3#16) := by decide
/-- V5: the decode fault comes before the destination fault. -/
theorem test_set_fault_order : faulted (boot [1#16, 5#16, 40000#16]) =
    expectF .decodeFault .badOperand 0#16 (some 1#16) := by decide
/-- V6. -/
theorem test_set_bad_dest : faulted (boot [1#16, 32776#16, 5#16]) =
    expectF .addressFault .destNotRegister 0#16 (some 1#16) := by decide
/-- V7. -/
theorem test_push : after { (boot [2#16, 32770#16]).setReg 2 9#16 with stack := [1#16] } (fun t => (t.stack, t.pc)) =
    some ([1#16, 9#16], 2#16) := by decide
/-- V8. -/
theorem test_pop : after { boot [3#16, 32771#16] with stack := [4#16, 7#16] } (fun t => (t.reg 3, t.stack, t.pc)) =
    some (7#16, [4#16], 2#16) := by decide
/-- V9, V10. -/
theorem test_pop_empty : faulted (boot [3#16, 32768#16]) = expectF .stackFault .empty 0#16 (some 3#16) ∧
    faulted (boot [3#16, 5#16]) = expectF .addressFault .destNotRegister 0#16 (some 3#16) := by decide
/-- V12. -/
theorem test_eq : after (((boot [4#16, 32768#16, 32769#16, 7#16]).setReg 0 9#16).setReg 1 7#16)
    (fun t => (t.reg 0, t.pc)) = some (1#16, 4#16) := by decide
/-- V13: all 16 bits are compared. -/
theorem test_eq_wide : after (((boot [4#16, 32768#16, 32769#16, 5#16]).setReg 0 9#16).setReg 1 32773#16)
    (fun t => t.reg 0) = some 0#16 := by decide
/-- V15: strict. -/
theorem test_gt_strict : after ((boot [5#16, 32768#16, 10#16, 10#16]).setReg 0 9#16) (fun t => t.reg 0) =
    some 0#16 := by decide
/-- V18: unsigned, wide. -/
theorem test_gt_wide : after ((boot [5#16, 32768#16, 32769#16, 32767#16]).setReg 1 32768#16) (fun t => t.reg 0) =
    some 1#16 := by decide
/-- V19. -/
theorem test_jmp : after (boot [6#16, 100#16]) (fun t => t.pc) = some 100#16 := by decide
/-- V20: the jump itself does not fault. -/
theorem test_jmp_wide : after ((boot [6#16, 32768#16]).setReg 0 40000#16) (fun t => (t.pc, t.runState)) =
    some (40000#16, .running) := by decide
/-- V21, V22. -/
theorem test_jt : after ((boot [7#16, 32768#16, 50#16]).setReg 0 3#16) (fun t => t.pc) = some 50#16 ∧
    after (boot [7#16, 32768#16, 50#16]) (fun t => t.pc) = some 3#16 := by decide
/-- V23: the target is resolved though not taken. -/
theorem test_jt_bad_target : faulted (boot [7#16, 0#16, 40000#16]) =
    expectF .decodeFault .badOperand 0#16 (some 7#16) := by decide
/-- V24, V25. -/
theorem test_jf : after (boot [8#16, 32768#16, 50#16]) (fun t => t.pc) = some 50#16 ∧
    after ((boot [8#16, 32768#16, 50#16]).setReg 0 3#16) (fun t => t.pc) = some 3#16 := by decide
/-- V29. -/
theorem test_add_wraps : after ((boot [9#16, 32768#16, 32768#16, 32768#16]).setReg 0 20000#16)
    (fun t => (t.reg 0, t.pc)) = some (7232#16, 4#16) := by decide
/-- V31: the sum of the full 16-bit values. -/
theorem test_add_wide : after ((boot [9#16, 32769#16, 32768#16, 32768#16]).setReg 0 65535#16) (fun t => t.reg 1) =
    some 32766#16 := by decide
/-- V32. -/
theorem test_mult : after (boot [10#16, 32768#16, 300#16, 300#16]) (fun t => (t.reg 0, t.pc)) =
    some (24464#16, 4#16) := by decide
/-- V38: the product of the full 16-bit values. -/
theorem test_mult_wide : after ((boot [10#16, 32769#16, 32768#16, 32768#16]).setReg 0 65535#16) (fun t => t.reg 1) =
    some 1#16 := by decide
/-- V39, V49. -/
theorem test_mod : after (boot [11#16, 32768#16, 17#16, 5#16]) (fun t => (t.reg 0, t.pc)) = some (2#16, 4#16) ∧
    after (((boot [11#16, 32769#16, 32768#16, 32770#16]).setReg 0 40000#16).setReg 2 50000#16) (fun t => t.reg 1) =
      some 40000#16 := by decide
/-- V46, V47. -/
theorem test_mod_zero : faulted ((boot [11#16, 32768#16, 5#16, 32769#16]).setReg 0 9#16) =
      expectF .arithmeticFault .modZero 0#16 (some 11#16) ∧
    faulted (boot [11#16, 5#16, 1#16, 0#16]) = expectF .addressFault .destNotRegister 0#16 (some 11#16) := by decide
/-- V50. -/
theorem test_and : after (boot [12#16, 32768#16, 32767#16, 255#16]) (fun t => (t.reg 0, t.pc)) =
    some (255#16, 4#16) := by decide
/-- V53. -/
theorem test_and_wide : after ((boot [12#16, 32769#16, 32768#16, 32768#16]).setReg 0 32773#16) (fun t => t.reg 1) =
    some 32773#16 := by decide
/-- V55. -/
theorem test_or : after (boot [13#16, 32768#16, 21845#16, 10922#16]) (fun t => (t.reg 0, t.pc)) =
    some (32767#16, 4#16) := by decide
/-- V56. -/
theorem test_or_wide : after ((boot [13#16, 32769#16, 32768#16, 1#16]).setReg 0 32768#16) (fun t => t.reg 1) =
    some 32769#16 := by decide
/-- V60. -/
theorem test_not : after (boot [14#16, 32768#16, 21845#16]) (fun t => (t.reg 0, t.pc)) = some (10922#16, 3#16) := by
  decide
/-- V61: bit 15 is kept. -/
theorem test_not_wide : after ((boot [14#16, 32769#16, 32768#16]).setReg 0 32773#16) (fun t => t.reg 1) =
    some 65530#16 := by decide
/-- V65: the old register is the address, and the word is raw. -/
theorem test_rmem : after ((boot [15#16, 32769#16, 32769#16]).setReg 1 2#16) (fun t => (t.reg 1, t.pc)) =
    some (32769#16, 3#16) := by decide
/-- V66. -/
theorem test_rmem_range : faulted ((boot [15#16, 32768#16, 32769#16]).setReg 1 32768#16) =
    expectF .addressFault .memRange 0#16 (some 15#16) := by decide
/-- V69. -/
theorem test_wmem : after (((boot [16#16, 32768#16, 32769#16]).setReg 0 20#16).setReg 1 40000#16)
    (fun t => (t.mem.readWord 20, t.mem.readWord 19, t.mem.readWord 21, t.reg 0)) =
      some (40000#16, 0#16, 0#16, 20#16) := by decide
/-- V70: over its own words. -/
theorem test_wmem_self : after (boot [16#16, 0#16, 21#16])
    (fun t => (t.mem.readWord 0, t.mem.readWord 1, t.mem.readWord 2, t.pc)) = some (21#16, 0#16, 21#16, 3#16) := by
  decide
/-- V74. -/
theorem test_call : after { (boot [17#16, 32768#16]).setReg 0 500#16 with stack := [9#16] }
    (fun t => (t.stack, t.pc)) = some ([9#16, 2#16], 500#16) := by decide
/-- V78: the return address is not reduced. -/
theorem test_call_end : after (bootAt 32766 [17#16, 100#16]) (fun t => (t.stack, t.pc)) =
    some ([32768#16], 100#16) := by decide
/-- V77. -/
theorem test_ret : after { boot [18#16] with stack := [7#16, 40000#16] } (fun t => (t.stack, t.pc)) =
    some ([7#16], 40000#16) := by decide
/-- V76: Faulted, not Halted. -/
theorem test_ret_empty : faulted (boot [18#16]) = expectF .stackFault .empty 0#16 (some 18#16) := by decide
/-- V81. -/
theorem test_out : after (boot [19#16, 321#16]) (fun t => (t.outlog, t.pc)) = some ([65#8], 2#16) := by decide
/-- V83. -/
theorem test_out_wide : after ((boot [19#16, 32768#16]).setReg 0 65535#16) (fun t => t.outlog) = some [255#8] := by
  decide
/-- V84. -/
theorem test_in : after { (boot [20#16, 32768#16]).setReg 0 4660#16 with inbuf := [104#8, 105#8, 10#8] }
    (fun t => (t.reg 0, t.inbuf, t.pc)) = some (104#16, [105#8, 10#8], 2#16) := by decide
/-- V86: no step; after the refill the same `in` completes. -/
theorem test_in_stalls : step (boot [20#16, 32768#16]) = .fault .stalledOnInput ∧
    ((boot [20#16, 32768#16]).refill [10#8]).map (fun s => after s fun t => (t.reg 0, t.pc)) =
      some (some (10#16, 2#16)) := ⟨rfl, by decide⟩
/-- V87: at once, with no wait. -/
theorem test_in_bad_dest : faulted (boot [20#16, 5#16]) =
    expectF .addressFault .destNotRegister 0#16 (some 20#16) := by decide
/-- V88, V94. -/
theorem test_halt : after (boot [0#16]) (fun t => (t.runState, t.pc, t.fault)) = some (.halted, 0#16, none) ∧
    after (bootAt 32767 [0#16]) (fun t => (t.runState, t.pc)) = some (.halted, 32767#16) := by decide
/-- V89, V93. -/
theorem test_noop : after (boot [21#16]) (fun t => t.pc) = some 1#16 ∧
    after (bootAt 32767 [21#16]) (fun t => (t.pc, t.runState)) = some (32768#16, .running) := by decide
/-- V90, V91, V92. -/
theorem test_bad_opcode : faulted (boot [22#16]) = expectF .decodeFault .badOpcode 0#16 (some 22#16) ∧
    faulted ((boot [32768#16]).setReg 0 21#16) = expectF .decodeFault .badOpcode 0#16 (some 32768#16) ∧
    faulted (boot [65535#16]) = expectF .decodeFault .badOpcode 0#16 (some 65535#16) := by decide
/-- V20, V93: the next step after the pc has left the memory. -/
theorem test_fetch_range : faulted { boot [] with pc := 40000#16 } = expectF .addressFault .memRange 40000#16 none ∧
    faulted { boot [] with pc := 32768#16 } = expectF .addressFault .memRange 32768#16 none := by decide
/-- V95, V96, V97. -/
theorem test_straddle : faulted (bootAt 32767 [6#16]) = expectF .addressFault .memRange 32767#16 (some 6#16) ∧
    faulted (bootAt 32766 [1#16, 32768#16]) = expectF .addressFault .memRange 32766#16 (some 1#16) ∧
    faulted (bootAt 32765 [9#16, 32768#16, 1#16]) = expectF .addressFault .memRange 32765#16 (some 9#16) := by decide
/-- V98: operand 2 faults before operand 3 is fetched. -/
theorem test_straddle_order : faulted (bootAt 32765 [4#16, 32768#16, 40000#16]) =
    expectF .decodeFault .badOperand 32765#16 (some 4#16) := by decide
/-- V99. -/
theorem test_untouched : after { State.reset with pc := 1000#16 } (fun t => (t.runState, t.pc)) =
    some (.halted, 1000#16) := by decide
/-- R104 and program P1: the image lands in memory low byte first. -/
theorem test_load : (State.load [0x13#8, 0x00#8, 0x41#8, 0x80#8, 0x00#8, 0x00#8]).map
    (fun s => (s.mem.readWord 0, s.mem.readWord 1, s.mem.readWord 2, s.pc)) =
      some (19#16, 32833#16, 0#16, 0#16) ∧ State.load [0x13#8] = none := by decide
/-- The interface's two definitions agree on a word. -/
theorem test_withFetchWord : after (State.reset.withFetchWord 32 0x00410013) (fun t => (t.outlog, t.pc)) =
    some ([65#8], 2#16) := by decide
/-- R82, R106: a stalled run is not finished; one line lifts the stall, and an empty line does not. -/
theorem test_runHost_refill :
    ((boot [20#16, 32768#16]).runHost 2 [[10#8], [7#8]]).1 = [[7#8]] ∧
    ((boot [20#16, 32768#16]).runHost 2 [[10#8], [7#8]]).2.reg 0 = 10#16 ∧
    (boot [20#16, 32768#16]).runHost 2 [[], [7#8]] = ([[], [7#8]], boot [20#16, 32768#16]) :=
  ⟨by decide, by decide, rfl⟩
/-- R106: a run that faults after its first refill is not safe, though without input it only stalls. -/
theorem test_fault_after_refill :
    ((boot [20#16, 32768#16, 22#16]).runHost 3 [[10#8]]).2.runState = .faulted ∧
    ((boot [20#16, 32768#16, 22#16]).runHost 3 []).2.fate [] = .stalled := by decide
/-- Program P1 (R104, R106): from the image to `Halted`, with its output. -/
theorem test_runImage : (State.runImage [0x13#8, 0x00#8, 0x41#8, 0x00#8, 0x00#8, 0x00#8] [] 2).map
    (fun p => (p.2.runState, p.2.pc, p.2.outlog)) = some (.halted, 2#16, [65#8]) := by decide

end Sys2Proof.Tests

/-! ## Witnesses: what meets the hypotheses of each statement, clause by clause -/

namespace Sys2Proof.Witness

open Sys2Proof.Tests

/-- A state stalled at `in r7`. -/
def stalledState : State := boot [20#16, 32775#16]

/-- A state at `noop` at the last address. -/
def lastNoop : State := bootAt 32767 [21#16]

/-- A state at `pop 32771` with two stack entries. -/
def popState : State := { boot [3#16, 32771#16] with stack := [4#16, 7#16] }

/-- A core that has faulted at an illegal opcode. -/
def faultedState : State := raise .badOpcode (boot [22#16])

theorem bootAt_valueInv (p : Nat) (ws : List Word) : (bootAt p ws).ValueInv :=
  ⟨fun i => by simp [bootAt, State.reg, State.afterReset, Config.resetRegs], fun _ h => nomatch h⟩

theorem decodeUndoesEncode : (Instr.add 65535#16 (.lit 32767#16) (.reg 7)).wf = true ∧
    (Instr.wmem (.lit 0#16) (.reg 0)).wf = true := by decide
theorem encodeUndoesDecode : decode [9#16, 65535#16, 32767#16, 32775#16, 5#16] =
    .ok (.add 65535#16 (.lit 32767#16) (.reg 7), [5#16]) := rfl
theorem classifyHasThreeRanges : (0#16 : Word).toNat ≤ 32767 ∧ (32767#16 : Word).toNat ≤ 32767 ∧ IsReg 32768#16 ∧
    IsReg 32775#16 ∧ IsInvalid 32776#16 ∧ IsInvalid 65535#16 := by
  unfold IsReg IsInvalid; decide
theorem valueRoleResolution : (32767#16 : Word).toNat ≤ 32767 ∧ (32768#16 : Word).toNat = 32768 + (0 : RegIx).val ∧
    (32775#16 : Word).toNat = 32768 + (7 : RegIx).val ∧ IsInvalid 32776#16 := by
  unfold IsInvalid; decide
theorem decodePhaseFaultsInOrder_fetch : ({ boot [] with pc := 32768#16 } : State).runState = .running ∧
    32767 < ({ boot [] with pc := 32768#16 } : State).pc.toNat := by decide
theorem decodePhaseFaultsInOrder_opcode : At (boot [22#16]) 22 ∧ At (bootAt 32767 [65535#16]) 65535 := by
  unfold At; decide
theorem decodePhaseFaultsInOrder_beyond : At (bootAt 32767 [6#16]) 6 ∧ FirstBeyond (bootAt 32767 [6#16]) 6 1 ∧
    At (bootAt 32765 [9#16, 32768#16, 1#16]) 9 ∧ FirstBeyond (bootAt 32765 [9#16, 32768#16, 1#16]) 9 3 := by
  refine ⟨by unfold At; decide, ⟨by decide, by decide, fun j h1 h2 => by omega, by decide⟩, by unfold At; decide,
    ⟨by decide, by decide, fun j h1 h2 => ?_, by decide⟩⟩
  obtain rfl | rfl : j = 1 ∨ j = 2 := by omega
  all_goals unfold IsInvalid; decide
theorem decodePhaseFaultsInOrder_invalid : At (boot [2#16, 32776#16]) 2 ∧ FirstInvalid (boot [2#16, 32776#16]) 2 1 ∧
    At (bootAt 32765 [4#16, 32768#16, 40000#16]) 4 ∧ FirstInvalid (bootAt 32765 [4#16, 32768#16, 40000#16]) 4 2 := by
  refine ⟨by unfold At; decide, ⟨by decide, by decide, fun j h1 h2 => by omega, by decide, by decide,
    by unfold IsInvalid; decide⟩, by unfold At; decide, ⟨by decide, by decide, fun j h1 h2 => ?_, by decide, by decide,
    by unfold IsInvalid; decide⟩⟩
  obtain rfl : j = 1 := by omega
  unfold IsInvalid; decide
theorem decodePhaseFaultsInOrder_passed : At lastNoop 21 ∧ PassedBefore lastNoop 21 1 ∧
    At (bootAt 32766 [17#16, 32775#16]) 17 ∧ PassedBefore (bootAt 32766 [17#16, 32775#16]) 17 2 := by
  refine ⟨by unfold At; decide, fun j h1 h2 => by omega, by unfold At; decide, fun j h1 h2 => ?_⟩
  obtain rfl : j = 1 := by omega
  unfold IsInvalid; decide
theorem stepRunsDecodedInstruction : ∃ (s : State) (i : Instr), s.runState = .running ∧ i.wf = true ∧
    s.pc.toNat + (encode i).length = 32768 ∧
    ∀ k, (h : k < (encode i).length) → s.mem.readWord (s.pc.toNat + k) = (encode i)[k] :=
  ⟨bootAt 32764 [9#16, 5#16, 32767#16, 32775#16], .add 5#16 (.lit 32767#16) (.reg 7), rfl, by decide, by decide,
    by decide⟩
theorem illegalOpcodeFaults : At (boot [22#16]) 22 ∧ At (boot [21#16]) 21 := by
  unfold At; decide
theorem faultsArePrecise : (∃ t, step (boot [22#16]) = .next t ∧ t.runState = .faulted) ∧
    (∃ t, step (boot [0#16]) = .next t ∧ t.runState = .halted) ∧
    ∃ t, step lastNoop = .next t ∧ t.runState = .running := ⟨⟨_, rfl, rfl⟩, ⟨_, rfl, rfl⟩, ⟨_, rfl, rfl⟩⟩
theorem memRangeRaisedExactly : (boot []).runState = .running ∧
    (∃ d a, ((boot [15#16, 32768#16, 32769#16]).setReg 1 32768#16).DecodesTo (.rmem d a) ∧ IsReg d ∧
      32767 < (((boot [15#16, 32768#16, 32769#16]).setReg 1 32768#16).val a).toNat) ∧
    ∃ a b, ((boot [16#16, 32768#16, 1#16]).setReg 0 32768#16).DecodesTo (.wmem a b) ∧
      32767 < (((boot [16#16, 32768#16, 1#16]).setReg 0 32768#16).val a).toNat :=
  ⟨rfl, ⟨_, _, ⟨_, rfl⟩, by unfold IsReg; decide, by decide⟩, ⟨_, _, ⟨_, rfl⟩, by decide⟩⟩
theorem badOperandRaisedExactly : step (boot [1#16, 32768#16, 32776#16]) =
    .next (raise .badOperand (boot [1#16, 32768#16, 32776#16])) := rfl
theorem destNotRegisterRaisedExactly : ((32767#16 : Word).toNat ≤ 32767 ∧ 32776 ≤ (32776#16 : Word).toNat) ∧
    ∃ i d, (boot [3#16, 32767#16]).DecodesTo i ∧ i.destWord? = some d ∧ d.toNat ≤ 32767 :=
  ⟨by decide, _, _, ⟨_, rfl⟩, rfl, by decide⟩
theorem stackEmptyRaisedExactly : (boot [18#16]).stack = [] ∧ (boot [18#16]).DecodesTo .ret ∧
    (boot [3#16, 32775#16]).stack = [] ∧ (boot [3#16, 32775#16]).DecodesTo (.pop 32775#16) ∧ IsReg 32775#16 :=
  ⟨rfl, ⟨_, rfl⟩, rfl, ⟨_, rfl⟩, by unfold IsReg; decide⟩
theorem modZeroRaisedExactly : ∃ d a b, (boot [11#16, 32768#16, 5#16, 32769#16]).DecodesTo (.mod d a b) ∧ IsReg d ∧
    ((boot [11#16, 32768#16, 5#16, 32769#16]).val b).toNat = 0 :=
  ⟨_, _, _, ⟨_, rfl⟩, by unfold IsReg; decide, by decide⟩
theorem overflowOnlyUnderFiniteCapacity : 2 ≤ popState.stack.length ∧ popState.stack.length < 3 ∧
    0 ≤ (boot []).stack.length := by decide
theorem stepExistsExactly : (∃ t, step (boot []) = .next t) ∧ stalledState.runState = .running ∧
    (∃ d, stalledState.DecodesTo (.inp d) ∧ IsReg d) ∧ stalledState.inbuf = [] :=
  ⟨⟨_, rfl⟩, rfl, ⟨_, ⟨_, rfl⟩, by unfold IsReg; decide⟩, rfl⟩
theorem runStateTransitions : (∃ t, step (boot [0#16]) = .next t) ∧ (∃ t, step (boot [22#16]) = .next t) ∧
    ({ boot [] with runState := .halted } : State).runState = .halted ∧ faultedState.runState = .faulted :=
  ⟨⟨_, rfl⟩, ⟨_, rfl⟩, rfl, rfl⟩
theorem stopsAreExactlyThree : step { boot [] with runState := .halted } = .fault .alreadyHalted ∧
    step faultedState = .fault .alreadyFaulted ∧ step stalledState = .fault .stalledOnInput := ⟨rfl, rfl, rfl⟩
theorem runEndsInOneOfItsFates : stalledState.Inv ∧ faultedState.Inv ∧
    (∃ t, Host.Core.run core 1 (boot [0#16]) = .next t) ∧
    Host.Core.run core 2 (boot [0#16]) = .fault .alreadyHalted ∧
    Host.Core.run core 2 (boot [22#16]) = .fault .alreadyFaulted ∧
    Host.Core.run core 2 stalledState = .fault .stalledOnInput ∧
    (stalledState.runHost 2 []).2.fate [] = .stalled ∧
    ((boot [0#16]).runHost 2 []).2.fate [] = .halted ∧ ((boot [22#16]).runHost 2 []).2.fate [] = .faulted ∧
    ((boot [6#16, 0#16]).runHost 2 []).2.fate [] = .running :=
  ⟨⟨by decide, fun _ => rfl, fun h => absurd h (by decide)⟩,
    ⟨by decide, fun h => absurd rfl h, fun _ => ⟨.badOpcode, rfl⟩⟩, ⟨_, rfl⟩, rfl, rfl, rfl, by decide, by decide,
    by decide, by decide⟩
theorem loadedStateIsTheImageAndZero : ([] : List Byte).length = 2 * 0 ∧
    (List.replicate 65536 1#8).length = 2 * 32768 ∧ (32767#16 : Word).toNat < 32768 ∧ (0#16 : Word).toNat < 1 ∧
    1 ≤ (32767#16 : Word).toNat ∧ ([1#8] : List Byte).length % 2 = 1 ∧ 65536 < (List.replicate 65538 1#8).length :=
  ⟨rfl, List.length_replicate, by decide, by decide, by decide, rfl, by rw [List.length_replicate]; decide⟩
theorem loadEstablishesInv : ∃ s, State.load [0x13#8, 0x00#8, 0x00#8, 0xFF#8] = some s := ⟨_, rfl⟩
theorem stepKeepsInv : stalledState.Inv ∧ (∃ t, State.refill [10#8] stalledState = some t) ∧ (boot [21#16]).Inv ∧
    ∃ t, step (boot [21#16]) = .next t :=
  ⟨⟨by decide, fun _ => rfl, fun h => absurd h (by decide)⟩, ⟨_, rfl⟩,
    ⟨by decide, fun _ => rfl, fun h => absurd h (by decide)⟩, ⟨_, rfl⟩⟩
/-- V64 and V78: the two cases in which the spec's INV breaks, and a step that keeps it. -/
theorem valueInvBrokenExactly : ((boot [15#16, 32768#16, 1#16]).ValueInv ∧
      32767 < ((boot [15#16, 32768#16, 1#16]).mem.readWord 1).toNat ∧ ∃ t, step (boot [15#16, 32768#16, 1#16]) = .next t) ∧
    ((bootAt 32766 [17#16, 100#16]).ValueInv ∧ ∃ t, step (bootAt 32766 [17#16, 100#16]) = .next t) ∧
    (lastNoop.ValueInv ∧ ∃ t, step lastNoop = .next t) :=
  ⟨⟨bootAt_valueInv _ _, by decide, ⟨_, rfl⟩⟩, ⟨bootAt_valueInv _ _, ⟨_, rfl⟩⟩, bootAt_valueInv _ _, ⟨_, rfl⟩⟩
theorem valueInvKeepsAddressesInRange : lastNoop.ValueInv ∧ lastNoop.runState = .running ∧
    srcOf? 32767#16 = some (.lit 32767#16) ∧ srcOf? 32775#16 = some (.reg 7) ∧ lastNoop.pc.toNat ≤ 32767 ∧
    ∃ t, step lastNoop = .next t ∧ 32767 < t.pc.toNat :=
  ⟨bootAt_valueInv _ _, rfl, by decide, by decide, by decide, ⟨_, rfl, by decide⟩⟩
theorem refillResumesTheStalledIn : step stalledState = .fault .stalledOnInput ∧ [10#8] ≠ ([] : List Byte) :=
  ⟨rfl, by decide⟩
/-- A loaded core that has since written a register, the stack, the output and another word of memory, at the first word
beyond the image and at the last of memory. -/
theorem untouchedMemoryHalts : ∀ q ∈ [1#16, 32767#16], ∃ (image : List Byte) (s t : State), State.load image = some s ∧
    t.runState = .running ∧ t.pc = q ∧ image.length ≤ 2 * t.pc.toNat ∧ t.pc.toNat ≤ 32767 ∧
    t.mem.readWord t.pc.toNat = s.mem.readWord t.pc.toNat ∧ t.mem ≠ s.mem ∧ t.stack ≠ s.stack ∧ t.x ≠ s.x := by
  intro q hq
  simp only [List.mem_cons, List.not_mem_nil, or_false] at hq
  refine ⟨[0x15#8, 0x00#8], _, { (boot [21#16, 0#16, 5#16]).setReg 3 9#16 with pc := q, stack := [5#16], outlog := [1#8] },
    rfl, ?_⟩
  rcases hq with rfl | rfl <;> decide
theorem memoryReadsWhatWasWritten : (boot [19#16, 65#16]).mem.wf = true ∧ (32767#16 : Word).toNat ≤ 32767 ∧
    32767 < (32768#16 : Word).toNat := by decide
theorem equalReadsEqualMemories : ∃ m m' : Memory, m.wf = true ∧ m'.wf = true ∧
    (∀ a, a < 32768 → m.readWord a = m'.readWord a) ∧ m ≠ [] :=
  ⟨(boot [19#16, 65#16]).mem, [(0, 19#8), (2, 65#8)], by decide, by decide, fun _ _ => rfl, by decide⟩
theorem onlyWmemWritesMemory : (∃ t, step (boot [16#16, 32767#16, 99#16]) = .next t ∧
    t.mem ≠ (boot [16#16, 32767#16, 99#16]).mem) ∧ ∃ t, step lastNoop = .next t := ⟨⟨_, rfl, by decide⟩, ⟨_, rfl⟩⟩
theorem nextFetchSeesTheStore : ∀ v ∈ [0#16, 18#16, 21#16, 22#16],
    (bootAt 32764 [16#16, 32767#16, v]).runState = .running ∧ (bootAt 32764 [16#16, 32767#16, v]).mem.wf = true ∧
    (bootAt 32764 [16#16, 32767#16, v]).DecodesTo (.wmem (.lit 32767#16) (.lit v)) ∧
    (bootAt 32764 [16#16, 32767#16, v]).pc.toNat + 3 = 32767 := by
  intro v hv
  simp only [List.mem_cons, List.not_mem_nil, or_false] at hv
  rcases hv with rfl | rfl | rfl | rfl <;> exact ⟨rfl, by decide, ⟨_, rfl⟩, by decide⟩
theorem registersWrittenOnlyAsDestination : ∃ t, step (boot [1#16, 32775#16, 5#16]) = .next t ∧
    t.reg 7 ≠ (boot [1#16, 32775#16, 5#16]).reg 7 := ⟨_, rfl, by decide⟩
theorem stackChangesOnlyAtItsTop : (∃ t, step popState = .next t ∧ t.stack ≠ popState.stack) ∧
    (∃ t, step (boot [2#16, 32767#16]) = .next t ∧ t.stack ≠ []) ∧
    (∃ t, step (boot [17#16, 32767#16]) = .next t ∧ t.stack ≠ []) ∧
    ∃ t, step { boot [18#16] with stack := [2#16] } = .next t ∧ t.stack = [] :=
  ⟨⟨_, rfl, by decide⟩, ⟨_, rfl, by decide⟩, ⟨_, rfl, by decide⟩, ⟨_, rfl, rfl⟩⟩
theorem outlogAppendOnlyAndUnread : (∃ t, step (boot [19#16, 321#16]) = .next t ∧ t.outlog ≠ []) ∧
    (bootAt 32766 [19#16, 32775#16]).runState = .running ∧ (bootAt 32766 [19#16, 32775#16]).DecodesTo (.out (.reg 7)) :=
  ⟨⟨_, rfl, by decide⟩, rfl, ⟨_, rfl⟩⟩
theorem inputConsumedOnlyByIn : (∃ t, step { stalledState with inbuf := [255#8] } = .next t ∧ t.inbuf = []) ∧
    ∃ t, step lastNoop = .next t ∧ ¬ ∃ d, lastNoop.DecodesTo (.inp d) :=
  ⟨⟨_, rfl, rfl⟩, _, rfl, fun ⟨_, _, h⟩ => by cases h⟩
theorem pcAfterEachInstruction : (∃ t, step lastNoop = .next t ∧ t.runState ≠ .faulted) ∧
    ∃ t, step (boot [22#16]) = .next t ∧ t.runState = .faulted := ⟨⟨_, rfl, by decide⟩, ⟨_, rfl, rfl⟩⟩
/-- Each opcode word at the pc, at the first and at the last address: the hypothesis `At s op` of `SetStep` to
`HaltNoopSteps`. -/
theorem everyOpcodeStands : ∀ op : Fin 22, At (boot [BitVec.ofNat 16 op.val]) op.val ∧
    At (bootAt 32767 [BitVec.ofNat 16 op.val]) op.val := by
  unfold At; decide
theorem setStep : At (boot [1#16, 32769#16, 1234#16]) 1 := by unfold At; decide
theorem popStep : At popState 3 ∧ popState.stack = [4#16] ++ [7#16] ∧ At (boot [3#16, 32768#16]) 3 ∧
    (boot [3#16, 32768#16]).stack = [] := by unfold At; decide
theorem wmemStep : At (boot [16#16, 20#16, 99#16]) 16 ∧ (boot [16#16, 20#16, 99#16]).mem.wf = true ∧
    (32767#16 : Word).toNat ≤ 32767 ∧ 32767 < (32768#16 : Word).toNat := by unfold At; decide
theorem retStep : At (boot [18#16]) 18 ∧ (boot [18#16]).stack = [] ∧
    At { boot [18#16] with stack := [7#16, 32768#16] } 18 ∧ [7#16, 32768#16] = [7#16] ++ [(32768#16 : Word)] ∧
    32767 < (32768#16 : Word).toNat := by
  unfold At; decide
theorem inStep : At stalledState 20 ∧ stalledState.inbuf = [] ∧ At { stalledState with inbuf := [255#8] } 20 := by
  unfold At; decide
theorem registerWritersComplete : (32768#16 : Word).toNat = 32768 + (0 : RegIx).val ∧
    (32775#16 : Word).toNat = 32768 + (7 : RegIx).val ∧ ((boot []).val (.lit 1#16)).toNat ≠ 0 ∧
    ((boot []).val (.lit 32767#16)).toNat ≤ 32767 := by decide
theorem wmemCompletes : ((boot []).val (.lit 32767#16)).toNat ≤ 32767 ∧ (boot []).mem.wf = true := by decide
theorem stackInstructionsComplete : popState.stack = [4#16] ++ [7#16] ∧
    (32771#16 : Word).toNat = 32768 + (3 : RegIx).val := by decide
theorem consoleInstructionsComplete : (32775#16 : Word).toNat = 32768 + (7 : RegIx).val ∧
    ({ stalledState with inbuf := [255#8] } : State).inbuf = 255#8 :: [] := by decide
theorem arithmeticLaws : (32768#16 : Word).toNat = 32768 + (0 : RegIx).val ∧
    (32775#16 : Word).toNat = 32768 + (7 : RegIx).val := by decide

end Sys2Proof.Witness
end

/-! # The state (spec/10_state.md)

What a step does to each component of the state: the laws first, then the statements they settle. -/

/-! ## The opcode word of a decoded instruction -/

namespace Sys2Proof

theorem eq_ofNat_of_toNat_eq {w : Word} {n : Nat} (h : w.toNat = n) : w = BitVec.ofNat 16 n := by
  rw [← h, BitVec.ofNat_toNat, BitVec.setWidth_eq]

/-! Each shape of operand roles, read as the words of the instruction it makes: `op` is the opcode word, which the
decoder has taken off before. -/

theorem rolesD_words {mk : Word → Instr} {op : Word} {ws rest : List Word} {i : Instr} (h : rolesD mk ws = .ok (i, rest))
    (hwf : ∀ d, (mk d).wf = true) (henc : ∀ d, encode (mk d) = [op, d]) :
    i.wf = true ∧ op :: ws = encode i ++ rest := by
  obtain ⟨d, rfl, rfl⟩ := rolesD_ok h
  exact ⟨hwf d, by rw [henc]; rfl⟩

theorem rolesV_words {mk : Src → Instr} {op : Word} {ws rest : List Word} {i : Instr} (h : rolesV mk ws = .ok (i, rest))
    (hwf : ∀ a, (mk a).wf = a.wf) (henc : ∀ a, encode (mk a) = [op, a.word]) :
    i.wf = true ∧ op :: ws = encode i ++ rest := by
  obtain ⟨w, a, rfl, ha, rfl⟩ := rolesV_ok h
  obtain ⟨hwa, rfl⟩ := srcOf?_some ha
  exact ⟨by rw [hwf, hwa], by rw [henc]; rfl⟩

theorem rolesVV_words {mk : Src → Src → Instr} {op : Word} {ws rest : List Word} {i : Instr}
    (h : rolesVV mk ws = .ok (i, rest)) (hwf : ∀ a b, (mk a b).wf = (a.wf && b.wf))
    (henc : ∀ a b, encode (mk a b) = [op, a.word, b.word]) : i.wf = true ∧ op :: ws = encode i ++ rest := by
  obtain ⟨w, a, w', b, rfl, ha, hb, rfl⟩ := rolesVV_ok h
  obtain ⟨hwa, rfl⟩ := srcOf?_some ha
  obtain ⟨hwb, rfl⟩ := srcOf?_some hb
  exact ⟨by rw [hwf, hwa, hwb]; rfl, by rw [henc]; rfl⟩

theorem rolesDV_words {mk : Word → Src → Instr} {op : Word} {ws rest : List Word} {i : Instr}
    (h : rolesDV mk ws = .ok (i, rest)) (hwf : ∀ d a, (mk d a).wf = a.wf)
    (henc : ∀ d a, encode (mk d a) = [op, d, a.word]) : i.wf = true ∧ op :: ws = encode i ++ rest := by
  obtain ⟨d, w, a, rfl, ha, rfl⟩ := rolesDV_ok h
  obtain ⟨hwa, rfl⟩ := srcOf?_some ha
  exact ⟨by rw [hwf, hwa], by rw [henc]; rfl⟩

theorem rolesDVV_words {mk : Word → Src → Src → Instr} {op : Word} {ws rest : List Word} {i : Instr}
    (h : rolesDVV mk ws = .ok (i, rest)) (hwf : ∀ d a b, (mk d a b).wf = (a.wf && b.wf))
    (henc : ∀ d a b, encode (mk d a b) = [op, d, a.word, b.word]) : i.wf = true ∧ op :: ws = encode i ++ rest := by
  obtain ⟨d, w, a, w', b, rfl, ha, hb, rfl⟩ := rolesDVV_ok h
  obtain ⟨hwa, rfl⟩ := srcOf?_some ha
  obtain ⟨hwb, rfl⟩ := srcOf?_some hb
  exact ⟨by rw [hwf, hwa, hwb]; rfl, by rw [henc]; rfl⟩

/-- Everything the decoder can accept: a well-formed instruction, whose words are the words read (R43, R48). -/
theorem decode_ok {ws rest : List Word} {i : Instr} (h : decode ws = .ok (i, rest)) :
    i.wf = true ∧ ws = encode i ++ rest := by
  cases ws with
  | nil => cases h
  | cons op ws =>
    simp only [decode] at h
    split at h
    case h_23 => cases h
    case h_1 hop | h_19 hop | h_22 hop =>
      obtain rfl := eq_ofNat_of_toNat_eq hop
      cases h
      exact ⟨rfl, rfl⟩
    case h_4 hop | h_21 hop =>
      obtain rfl := eq_ofNat_of_toNat_eq hop
      exact rolesD_words h (fun _ => rfl) fun _ => rfl
    case h_3 hop | h_7 hop | h_18 hop | h_20 hop =>
      obtain rfl := eq_ofNat_of_toNat_eq hop
      exact rolesV_words h (fun _ => rfl) fun _ => rfl
    case h_8 hop | h_9 hop | h_17 hop =>
      obtain rfl := eq_ofNat_of_toNat_eq hop
      exact rolesVV_words h (fun _ _ => rfl) fun _ _ => rfl
    case h_2 hop | h_15 hop | h_16 hop =>
      obtain rfl := eq_ofNat_of_toNat_eq hop
      exact rolesDV_words h (fun _ _ => rfl) fun _ _ => rfl
    case h_5 hop | h_6 hop | h_10 hop | h_11 hop | h_12 hop | h_13 hop | h_14 hop =>
      obtain rfl := eq_ofNat_of_toNat_eq hop
      exact rolesDVV_words h (fun _ _ _ => rfl) fun _ _ _ => rfl

theorem decode_halt {op : Word} (h : op.toNat = 0) (ws : List Word) : decode (op :: ws) = .ok (.halt, ws) := by
  simp [decode, h]

theorem Instr.len_le (i : Instr) : i.len ≤ 4 := by
  cases i <;> simp [Instr.len]

end Sys2Proof

/-! ## Canonical memories and loaded images -/

namespace Sys2Proof.Machine

@[simp] theorem Memory.readByte_cons_same (a : Nat) (b : Byte) (m : Memory) :
    Memory.readByte ((a, b) :: m) a = b := if_pos rfl

theorem Memory.readByte_cons_other {a k : Nat} (b : Byte) (m : Memory) (h : a ≠ k) :
    Memory.readByte ((a, b) :: m) k = m.readByte k := if_neg h

theorem Memory.wfFrom_cons_iff {lo a : Nat} {b : Byte} {m : Memory} :
    Memory.wfFrom lo ((a, b) :: m) = true ↔ lo ≤ a ∧ a < 65536 ∧ b ≠ 0#8 ∧ Memory.wfFrom (a + 1) m = true := by
  simp only [Memory.wfFrom, Bool.and_eq_true, decide_eq_true_eq, and_assoc]

/-- Of two canonical memories that read alike, neither lists a cell below the first one of the other: a listed cell is
not 0, and a cell that is not listed reads as 0. -/
theorem Memory.head_le_of_readByte_eq {lo a a' : Nat} {b b' : Byte} {m m' : Memory}
    (hm : Memory.wfFrom lo ((a, b) :: m) = true) (hm' : Memory.wfFrom lo ((a', b') :: m') = true)
    (h : ∀ k, k < 65536 → lo ≤ k → Memory.readByte ((a, b) :: m) k = Memory.readByte ((a', b') :: m') k) : a' ≤ a := by
  obtain ⟨hlo, ha, hb, -⟩ := Memory.wfFrom_cons_iff.1 hm
  obtain ⟨-, ha', hb', hr'⟩ := Memory.wfFrom_cons_iff.1 hm'
  by_contra hlt
  have hfrom : Memory.wfFrom a' ((a', b') :: m') = true := Memory.wfFrom_cons_iff.2 ⟨le_rfl, ha', hb', hr'⟩
  have hread := h a ha hlo
  rw [Memory.readByte_cons_same, Memory.readByte_below hfrom (Nat.lt_of_not_le hlt)] at hread
  exact hb hread

/-- A canonical memory is determined by what its cells read as. -/
theorem Memory.eq_of_readByte_eq {lo : Nat} {m m' : Memory} (hm : Memory.wfFrom lo m = true)
    (hm' : Memory.wfFrom lo m' = true) (h : ∀ k, k < 65536 → lo ≤ k → m.readByte k = m'.readByte k) : m = m' := by
  induction m generalizing lo m' with
  | nil =>
    cases m' with
    | nil => rfl
    | cons c' rest' =>
      obtain ⟨hlo, ha, hb, -⟩ := Memory.wfFrom_cons_iff.1 hm'
      exact absurd ((h c'.1 ha hlo).trans (Memory.readByte_cons_same _ _ _)).symm hb
  | cons c rest ih =>
    cases m' with
    | nil =>
      obtain ⟨hlo, ha, hb, -⟩ := Memory.wfFrom_cons_iff.1 hm
      exact absurd ((Memory.readByte_cons_same _ _ _).symm.trans (h c.1 ha hlo)) hb
    | cons c' rest' =>
      obtain ⟨a, b⟩ := c
      obtain ⟨a', b'⟩ := c'
      obtain rfl : a = a' := le_antisymm
        (Memory.head_le_of_readByte_eq hm' hm fun k hk hlo => (h k hk hlo).symm)
        (Memory.head_le_of_readByte_eq hm hm' h)
      obtain ⟨hlo, ha, -, hr⟩ := Memory.wfFrom_cons_iff.1 hm
      obtain ⟨-, -, -, hr'⟩ := Memory.wfFrom_cons_iff.1 hm'
      have hbyte : b = b' := by simpa using h a ha hlo
      have hrest : rest = rest' := ih hr hr' fun k hk hak => by
        have hne : a ≠ k := by omega
        simpa [Memory.readByte_cons_other _ _ hne] using h k hk (by omega)
      rw [hbyte, hrest]

/-- Cell `k` is a byte of word `k / 2`, so memories with the same words have the same cells. -/
theorem Memory.readByte_eq_of_readWord_eq {m m' : Memory} {k : Nat} (h : m.readWord (k / 2) = m'.readWord (k / 2)) :
    m.readByte k = m'.readByte k := by
  obtain ⟨hlow, hhigh⟩ := wordOfBytes_inj h
  obtain hk | hk : k = 2 * (k / 2) ∨ k = 2 * (k / 2) + 1 := by omega
  · rw [hk, hlow]
  · rw [hk, hhigh]

/-- Word `a` of a loaded image (R104). -/
theorem Memory.readWord_ofImage_toNat (image : List Byte) (a : Nat) :
    ((Memory.ofImage 0 image).readWord a).toNat =
      (image.getD (2 * a) 0#8).toNat + 256 * (image.getD (2 * a + 1) 0#8).toNat := by
  have hcell : ∀ j, (Memory.ofImage 0 image).readByte j = image.getD j 0#8 := fun j => by
    simpa using Memory.readByte_ofImage 0 j image
  rw [Memory.readWord, wordOfBytes_toNat, hcell, hcell]

/-- Beyond the image the memory is 0 (R22, R104). -/
theorem Memory.readWord_ofImage_beyond {image : List Byte} {a : Nat} (h : image.length ≤ 2 * a) :
    (Memory.ofImage 0 image).readWord a = 0#16 := by
  apply BitVec.eq_of_toNat_eq
  rw [Memory.readWord_ofImage_toNat, List.getD_eq_default _ _ h, List.getD_eq_default _ _ (by omega)]
  rfl

theorem Memory.wf_ofImage {image : List Byte} (h : image.length ≤ 65536) : (Memory.ofImage 0 image).wf = true :=
  Memory.wfFrom_ofImage le_rfl (by omega)

@[simp] theorem State.reg_afterReset (m : Memory) (i : RegIx) : (State.afterReset Config.resetRegs m).reg i = 0#16 := by
  simp [State.reg, State.afterReset, Config.resetRegs]

theorem State.load_eq_some {image : List Byte} (h : image.length % 2 = 0) (hl : image.length ≤ 65536) :
    State.load image = some (State.afterReset Config.resetRegs (Memory.ofImage 0 image)) := if_pos ⟨h, hl⟩

theorem State.load_eq_none {image : List Byte} (h : image.length % 2 = 1 ∨ 65536 < image.length) :
    State.load image = none := if_neg (by omega)

/-- Everything that a load can answer. -/
theorem State.load_cases {image : List Byte} {s : State} (h : State.load image = some s) :
    image.length ≤ 65536 ∧ s = State.afterReset Config.resetRegs (Memory.ofImage 0 image) := by
  unfold State.load at h
  split at h
  · next hl => exact ⟨hl.2, (Option.some.inj h).symm⟩
  · cases h

/-- The state after reset meets the machine's invariant, whatever canonical memory was loaded. -/
theorem State.inv_afterReset (regs : Vector Word 8) {m : Memory} (h : m.wf = true) : (State.afterReset regs m).Inv where
  memory := h
  noRecord _ := rfl
  record h := nomatch h

/-- The state after reset meets the spec's INV: this rests on the reset value of the registers. -/
theorem State.valueInv_afterReset (m : Memory) : (State.afterReset Config.resetRegs m).ValueInv where
  regs i := by simp
  stack _ h := nomatch h

/-! ## What a step can do -/

theorem State.DecodesTo.pc_lt {s : State} {i : Instr} (h : s.DecodesTo i) : s.pc.toNat < 32768 := by
  obtain ⟨rest, h⟩ := h
  by_contra hpc
  rw [State.decodeAt_out (Nat.le_of_not_lt hpc)] at h
  cases h

/-- The instruction at the pc is `halt` exactly when the opcode word there is 0 (R43). -/
theorem State.decodesTo_halt_iff (s : State) :
    s.DecodesTo .halt ↔ s.pc.toNat < 32768 ∧ (s.mem.readWord s.pc.toNat).toNat = 0 := by
  constructor
  · intro h
    have hpc := h.pc_lt
    obtain ⟨rest, hd⟩ := h
    rw [State.decodeAt, State.fetchWindow_in hpc] at hd
    obtain ⟨hop, -⟩ := List.cons.inj (decode_ok hd).2
    exact ⟨hpc, congrArg BitVec.toNat hop⟩
  · rintro ⟨hpc, hop⟩
    exact ⟨_, by rw [State.decodeAt, State.fetchWindow_in hpc, decode_halt hop]⟩

theorem State.DecodesTo.unique {s : State} {i j : Instr} (hi : s.DecodesTo i) (hj : s.DecodesTo j) : i = j := by
  obtain ⟨_, hi⟩ := hi
  obtain ⟨_, hj⟩ := hj
  cases hi.symm.trans hj
  rfl

theorem State.DecodesTo.step {s : State} {i : Instr} (h : s.DecodesTo i) (hr : s.runState = .running) :
    step s = exec i s := by
  obtain ⟨_, h⟩ := h
  exact step_decode_ok hr h

/-- A step enters `Faulted` by `raise`, or is an effect of the instruction at the pc. -/
theorem step_raise_or_effect {s t : State} (h : step s = .next t) :
    (∃ c, t = raise c s) ∨ ∃ i, s.DecodesTo i ∧ Effect i s t := by
  obtain ⟨-, ⟨e, -, rfl⟩ | ⟨i, rest, hd, ⟨c, -, rfl⟩ | heff⟩⟩ := step_next_cases h
  · exact .inl ⟨_, rfl⟩
  · exact .inl ⟨c, rfl⟩
  · exact .inr ⟨i, ⟨rest, hd⟩, heff⟩

theorem step_running {s t : State} (h : step s = .next t) : s.runState = .running := (step_next_cases h).1

theorem step_not_refused (s : State) (r : Refusal) : step s ≠ .refused r := by
  cases hr : s.runState with
  | halted => simp [step_halted hr]
  | faulted => simp [step_faulted hr]
  | running =>
    cases hd : s.decodeAt with
    | error e => simp [step_decode_error hr hd]
    | ok p => rw [step_decode_ok (rest := p.2) hr hd]; exact exec_not_refused p.1 s r

/-- A destination word names a register exactly when it lies in 32768..32775 (R42). -/
theorem isReg_iff (d : Word) : Claim.IsReg d ↔ ∃ r, dest? d = some r := by
  simp only [dest?_eq_some_iff, Claim.IsReg]
  constructor
  · rintro ⟨h₁, h₂⟩
    exact ⟨⟨d.toNat - 32768, by omega⟩, show d.toNat = 32768 + (d.toNat - 32768) by omega⟩
  · rintro ⟨r, hr⟩
    have := r.isLt
    omega

/-! ## What an effect does to each component -/

theorem Effect.not_faulted {i : Instr} {s t : State} (h : Effect i s t) (hr : s.runState = .running) :
    t.runState ≠ .faulted := by
  obtain ⟨-, ht⟩ | ⟨-, ht⟩ := h.runState <;> simp [ht, hr]

theorem Effect.halted_iff {i : Instr} {s t : State} (h : Effect i s t) (hr : s.runState = .running) :
    t.runState = .halted ↔ i = .halt := by
  obtain ⟨hi, ht⟩ | ⟨hi, ht⟩ := h.runState <;> simp [hi, ht, hr]

/-- Only `wmem` writes memory, and one word of it (R15). -/
theorem Effect.mem_cases {i : Instr} {s t : State} (h : Effect i s t) :
    t.mem = s.mem ∨ ∃ a b, i = .wmem a b ∧ (s.val a).toNat < 32768 ∧
      t.mem = s.mem.writeWord (s.val a).toNat (s.val b) := by
  cases h with
  | wmem ha => exact .inr ⟨_, _, rfl, ha, rfl⟩
  | _ => exact .inl rfl

/-- Only a destination register is written (R11). -/
theorem Effect.x_cases {i : Instr} {s t : State} (h : Effect i s t) :
    t.x = s.x ∨ ∃ d r v, i.destWord? = some d ∧ dest? d = some r ∧ t.x = s.x.set r.val v := by
  cases h with
  | plain hi hd => exact .inr ⟨_, _, _, hi, hd, rfl⟩
  | mod hd => exact .inr ⟨_, _, _, rfl, hd, rfl⟩
  | rmem hd => exact .inr ⟨_, _, _, rfl, hd, rfl⟩
  | pop hd => exact .inr ⟨_, _, _, rfl, hd, rfl⟩
  | inp hd => exact .inr ⟨_, _, _, rfl, hd, rfl⟩
  | _ => exact .inl rfl

/-- The stack changes at its top only (R14). -/
theorem Effect.stack_cases {i : Instr} {s t : State} (h : Effect i s t) :
    t.stack = s.stack ∨
    (∃ v, i = .push v ∧ t.stack = s.stack ++ [s.val v]) ∨
    (∃ v, i = .call v ∧ t.stack = s.stack ++ [s.pc + 2#16]) ∨
    (∃ d r w, i = .pop d ∧ dest? d = some r ∧ s.stack = t.stack ++ [w] ∧ t.reg r = w) ∨
    (i = .ret ∧ s.stack = t.stack ++ [t.pc]) := by
  cases h with
  | push => exact .inr (.inl ⟨_, rfl, rfl⟩)
  | call => exact .inr (.inr (.inl ⟨_, rfl, rfl⟩))
  | pop hd hs => exact .inr (.inr (.inr (.inl ⟨_, _, _, rfl, hd, hs, by simp⟩)))
  | ret hs => exact .inr (.inr (.inr (.inr ⟨rfl, hs⟩)))
  | _ => exact .inl rfl

theorem Effect.mem_wf {i : Instr} {s t : State} (h : Effect i s t) (hm : s.mem.wf = true) : t.mem.wf = true := by
  obtain hmem | ⟨a, b, -, ha, hmem⟩ := h.mem_cases
  · rw [hmem]; exact hm
  · rw [hmem]; exact Memory.wf_writeWord _ hm ha

/-! ## The two byte streams

An instruction takes at most a head of the input, adds at most a tail to the output, and does the same whatever else the
two streams hold. -/

/-- The state with other streams. -/
def State.withStreams (s : State) (inb out : List Byte) : State := { s with inbuf := inb, outlog := out }

@[simp] theorem State.withStreams_val (s : State) (inb out : List Byte) (v : Src) :
    (s.withStreams inb out).val v = s.val v := by
  cases v <;> rfl

@[simp] theorem plainResult?_withStreams (s : State) (inb out : List Byte) (i : Instr) :
    plainResult? (s.withStreams inb out) i = plainResult? s i := by
  cases i <;> simp [plainResult?]

/-- No fault of the execute phase depends on the streams. -/
theorem Raises.withStreams {i : Instr} {s : State} {c : Cause} (h : Raises i s c) (inb out : List Byte) :
    Raises i (s.withStreams inb out) c := by
  cases h with
  | dest hi hd => exact .dest hi hd
  | popEmpty hd hs => exact .popEmpty hd hs
  | retEmpty hs => exact .retEmpty hs
  | modZero hd hb => exact .modZero hd (by simpa using hb)
  | rmemRange hd ha => exact .rmemRange hd (by simpa using ha)
  | wmemRange ha => exact .wmemRange (by simpa using ha)

/-- The step from `s` to `t` takes the bytes `taken` off the input, which only `in` does, and adds the bytes `emitted` to
the output, which only `out` does. -/
structure MovesBytes (s t : State) (taken emitted : List Byte) : Prop where
  input : s.inbuf = taken ++ t.inbuf
  output : t.outlog = s.outlog ++ emitted
  taken_cases : taken = [] ∨ ∃ d r b, s.DecodesTo (.inp d) ∧ dest? d = some r ∧ taken = [b] ∧ t.reg r = b.setWidth 16
  emitted_cases : emitted = [] ∨ ∃ a, s.DecodesTo (.out a) ∧ emitted = [(s.val a).setWidth 8]

/-- The step from `s` to `t` moves bytes, and moves the same ones whatever else the two streams hold. -/
def StreamFrame (s t : State) : Prop :=
  ∃ taken emitted, MovesBytes s t taken emitted ∧
    ∀ inb out, step (s.withStreams (taken ++ inb) out) = .next (t.withStreams inb (out ++ emitted))

theorem streamFrame_of_same {s t : State} (hin : t.inbuf = s.inbuf) (hout : t.outlog = s.outlog)
    (h : ∀ inb out, step (s.withStreams inb out) = .next (t.withStreams inb out)) : StreamFrame s t :=
  ⟨[], [], ⟨hin.symm, by simp [hout], .inl rfl, .inl rfl⟩, fun inb out => by rw [List.append_nil]; exact h inb out⟩

theorem step_of_effect {i : Instr} {s t : State} (hr : s.runState = .running) (hi : s.DecodesTo i) (h : Effect i s t) :
    step s = .next t := (hi.step hr).trans (exec_of_effect h)

theorem Effect.streamFrame {i : Instr} {s t : State} (hr : s.runState = .running) (hi : s.DecodesTo i)
    (h : Effect i s t) : StreamFrame s t := by
  have same {t : State} (hin : t.inbuf = s.inbuf) (hout : t.outlog = s.outlog)
      (h : ∀ inb out, Effect i (s.withStreams inb out) (t.withStreams inb out)) : StreamFrame s t :=
    streamFrame_of_same hin hout fun inb out => step_of_effect hr hi (h inb out)
  cases h with
  | out =>
    exact ⟨[], [_], ⟨rfl, rfl, .inl rfl, .inr ⟨_, hi, rfl⟩⟩, fun _ _ => step_of_effect hr hi .out⟩
  | inp hd hs =>
    exact ⟨[_], [], ⟨hs, by simp, .inr ⟨_, _, _, hi, hd, rfl, by simp⟩, .inl rfl⟩,
      fun _ _ => by rw [List.append_nil]; exact step_of_effect hr hi (.inp hd rfl)⟩
  | plain hi hd hv => exact same rfl rfl fun _ _ => .plain hi hd (by simpa using hv)
  | mod hd hb => exact same rfl rfl fun _ _ => .mod hd hb
  | rmem hd ha => exact same rfl rfl fun _ _ => .rmem hd ha
  | wmem ha => exact same rfl rfl fun _ _ => .wmem ha
  | push => exact same rfl rfl fun _ _ => .push
  | pop hd hs => exact same rfl rfl fun _ _ => .pop hd hs
  | call => exact same rfl rfl fun _ _ => .call
  | ret hs => exact same rfl rfl fun _ _ => .ret hs
  | jmp => exact same rfl rfl fun _ _ => .jmp
  | jtTaken ha => exact same rfl rfl fun _ _ => .jtTaken ha
  | jtNot ha => exact same rfl rfl fun _ _ => .jtNot ha
  | jfTaken ha => exact same rfl rfl fun _ _ => .jfTaken ha
  | jfNot ha => exact same rfl rfl fun _ _ => .jfNot ha
  | halt => exact same rfl rfl fun _ _ => .halt
  | noop => exact same rfl rfl fun _ _ => .noop

theorem step_streamFrame {s t : State} (h : step s = .next t) : StreamFrame s t := by
  obtain ⟨hr, ⟨e, he, rfl⟩ | ⟨i, rest, hi, ⟨c, hc, rfl⟩ | heff⟩⟩ := step_next_cases h
  · exact streamFrame_of_same rfl rfl fun inb out => step_decode_error hr he
  · exact streamFrame_of_same rfl rfl fun inb out =>
      (step_decode_ok (s := s.withStreams inb out) hr hi).trans (exec_of_raises (hc.withStreams inb out))
  · exact heff.streamFrame hr ⟨rest, hi⟩

/-! ## How a step ends -/

/-- A step ends in `Halted` exactly when the instruction at the pc is `halt`. -/
theorem step_halts_iff {s t : State} (h : step s = .next t) : t.runState = .halted ↔ s.DecodesTo .halt := by
  have hr := step_running h
  constructor
  · intro ht
    obtain ⟨c, rfl⟩ | ⟨i, hi, heff⟩ := step_raise_or_effect h
    · cases ht
    · exact (heff.halted_iff hr).1 ht ▸ hi
  · intro hi
    cases h.symm.trans (step_of_effect hr hi .halt)
    rfl

/-- A step ends in `Faulted` exactly when it is an entry by `raise`. -/
theorem step_faults_iff {s t : State} (h : step s = .next t) : t.runState = .faulted ↔ ∃ c, t = raise c s := by
  constructor
  · intro ht
    obtain hraise | ⟨i, -, heff⟩ := step_raise_or_effect h
    · exact hraise
    · exact absurd ht (heff.not_faulted (step_running h))
  · rintro ⟨c, rfl⟩
    rfl

/-! ## The pc and the invariant -/

/-- At a pc where an instruction runs, the advance past it is the natural sum (R12, R55). -/
theorem advance_toNat {p : Word} {n : Nat} (hp : p.toNat < 32768) (hn : n ≤ 4) :
    (p + BitVec.ofNat 16 n).toNat = p.toNat + n := by
  simp only [BitVec.toNat_add, BitVec.toNat_ofNat]
  omega

theorem raise_inv (c : Cause) {s : State} (h : s.mem.wf = true) : (raise c s).Inv where
  memory := h
  noRecord hf := absurd rfl hf
  record _ := ⟨c, rfl⟩

theorem State.inv_of_running {s : State} (h : s.mem.wf = true) (hr : s.runState ≠ .faulted) (hf : s.fault = none) :
    s.Inv where
  memory := h
  noRecord _ := hf
  record hr' := absurd hr' hr

theorem step_inv {s t : State} (hs : s.Inv) (h : step s = .next t) : t.Inv := by
  have hr := step_running h
  obtain ⟨c, rfl⟩ | ⟨i, -, heff⟩ := step_raise_or_effect h
  · exact raise_inv c hs.memory
  · have hnone : s.fault = none := hs.noRecord (by simp [hr])
    exact State.inv_of_running (heff.mem_wf hs.memory) (heff.not_faulted hr) (heff.fault.trans hnone)

theorem refill_inv {s t : State} {line : List Byte} (hs : s.Inv) (h : State.refill line s = some t) : t.Inv := by
  obtain ⟨-, -, rfl⟩ := refill_cases h
  exact ⟨hs.memory, hs.noRecord, hs.record⟩

end Sys2Proof.Machine

/-! ## The statements -/

namespace Sys2Proof.Proofs

open Sys2Proof.Machine Sys2Proof.Claim

/-- Settles O24: a fault writes the record the invariant asks for; an effect keeps the canonical memory and writes no
record. -/
theorem stepKeepsInv : Obligations.StepKeepsInv :=
  fun _ hs => ⟨fun _ h => step_inv hs h, fun _ _ h => refill_inv hs h⟩

/-- Settles O18: the opcode word 0 is the only one that decodes to `halt`, and an effect never ends in `Faulted`. -/
theorem runStateTransitions : Obligations.RunStateTransitions := by
  refine ⟨rfl, fun s t h => ?_, fun s hs t => ?_⟩
  · have hr := step_running h
    have hhalt : At s 0 ↔ s.DecodesTo .halt := by
      simp only [At, hr, true_and, State.decodesTo_halt_iff, Nat.lt_succ_iff]
    exact ⟨hr, (step_halts_iff h).trans hhalt.symm, step_faults_iff h⟩
  · rcases hs with hs | hs
    · simp [step_halted hs]
    · simp [step_faulted hs]

/-- Settles O19: a stop is one of the three by the inversion of `step`, and each is answered where it should be. -/
theorem stopsAreExactlyThree : Obligations.StopsAreExactlyThree := by
  intro s
  refine ⟨⟨fun h => ?_, step_halted⟩, ⟨fun h => ?_, step_faulted⟩, ⟨fun h => ?_, ?_⟩, step_not_refused s⟩
  · obtain ⟨hr, -⟩ | ⟨-, hf⟩ | ⟨-, hf, -⟩ := step_fault_cases h
    · exact hr
    · cases hf
    · cases hf
  · obtain ⟨-, hf⟩ | ⟨hr, -⟩ | ⟨-, hf, -⟩ := step_fault_cases h
    · cases hf
    · exact hr
    · cases hf
  · obtain ⟨-, hf⟩ | ⟨-, hf⟩ | ⟨hr, -, i, rest, hi, d, r, rfl, hd, hin⟩ := step_fault_cases h
    · cases hf
    · cases hf
    · exact ⟨hr, ⟨d, ⟨rest, hi⟩, (isReg_iff d).2 ⟨r, hd⟩⟩, hin⟩
  · rintro ⟨hr, ⟨d, hi, hd⟩, hin⟩
    obtain ⟨r, hd⟩ := (isReg_iff d).1 hd
    exact (hi.step hr).trans (exec_of_waits ⟨d, r, rfl, hd, hin⟩)

/-- Settles O21: the words of the loaded memory are read off the image, two bytes each. -/
theorem loadedStateIsTheImageAndZero : Obligations.LoadedStateIsTheImageAndZero := by
  refine fun image => ⟨fun n hlen hn => ?_, State.load_eq_none⟩
  refine ⟨_, State.load_eq_some (by omega) (by omega), fun a ha => ?_, fun a hna ha => ?_, State.reg_afterReset _,
    rfl, rfl, rfl, rfl, rfl, rfl⟩
  · exact ⟨_, State.memRead?_in (by omega), Memory.readWord_ofImage_toNat image a.toNat⟩
  · rw [State.memRead?_in (by omega)]
    exact congrArg some (Memory.readWord_ofImage_beyond (by omega))

/-- Settles O22: the empty memory is canonical, and every register of the reset state is 0. -/
theorem invHoldsAtReset : Obligations.InvHoldsAtReset :=
  ⟨State.inv_afterReset _ rfl, State.valueInv_afterReset _⟩

/-- Settles O23: a load is a reset with the canonical memory of the image. -/
theorem loadEstablishesInv : Obligations.LoadEstablishesInv := by
  intro image s h
  obtain ⟨hlen, rfl⟩ := State.load_cases h
  exact ⟨State.inv_afterReset _ (Memory.wf_ofImage hlen), State.valueInv_afterReset _⟩

/-- Settles O30: equal words give equal cells, and the cells of a canonical memory determine it. -/
theorem equalReadsEqualMemories : Obligations.EqualReadsEqualMemories :=
  fun _ _ hm hm' h => Memory.eq_of_readByte_eq hm hm' fun _ hk _ => Memory.readByte_eq_of_readWord_eq (h _ (by omega))

/-- Settles O31: of the effects only that of `wmem` writes memory, by one `writeWord`. -/
theorem onlyWmemWritesMemory : Obligations.OnlyWmemWritesMemory := by
  intro s t h
  obtain ⟨c, rfl⟩ | ⟨i, hi, heff⟩ := step_raise_or_effect h
  · exact .inl rfl
  · obtain hmem | ⟨a, b, rfl, ha, hmem⟩ := heff.mem_cases
    · exact .inl hmem
    · refine .inr ⟨a, b, hi, by omega, ?_⟩
      rw [hmem]
      exact ⟨fun hwf => Memory.readWord_writeWord_same _ hwf ha, fun q hq => Memory.readWord_writeWord_other _ _ hq,
        fun k hk => Memory.readByte_writeWord_other _ _ (by omega) (by omega)⟩

/-- Settles O33: an effect sets no register but the one its destination word names. -/
theorem registersWrittenOnlyAsDestination : Obligations.RegistersWrittenOnlyAsDestination := by
  intro s t h j hj
  obtain ⟨c, rfl⟩ | ⟨i, hi, heff⟩ := step_raise_or_effect h
  · exact absurd rfl hj
  · obtain hx | ⟨d, r, v, hdest, hd, hx⟩ := heff.x_cases
    · exact absurd (State.reg_eq_of_x_eq hx j) hj
    · by_cases hjr : j = r
      · exact ⟨i, d, hi, hdest, hjr ▸ (dest?_eq_some_iff d r).1 hd⟩
      · have hset : t.reg j = (s.setReg r v).reg j := State.reg_eq_of_x_eq hx j
        exact absurd (hset.trans (State.reg_setReg_other s v hjr)) hj

/-- Settles O34: an effect changes the stack in one of four ways, and a fault leaves it. -/
theorem stackChangesOnlyAtItsTop : Obligations.StackChangesOnlyAtItsTop := by
  intro s t h
  obtain ⟨c, rfl⟩ | ⟨i, hi, heff⟩ := step_raise_or_effect h
  · exact .inl rfl
  · obtain hst | ⟨v, rfl, hst⟩ | ⟨v, rfl, hst⟩ | ⟨d, r, w, rfl, hd, hst, hreg⟩ | ⟨rfl, hst⟩ := heff.stack_cases
    · exact .inl hst
    · exact .inr (.inl ⟨v, hi, hst⟩)
    · exact .inr (.inr (.inl ⟨v, hi, hst⟩))
    · exact .inr (.inr (.inr (.inl ⟨d, r, w, hi, (dest?_eq_some_iff d r).1 hd, hst, hreg⟩)))
    · exact .inr (.inr (.inr (.inr ⟨hi, hst⟩)))

/-- Settles O35: the first and the last clause are the stream frame of the step, the last one at the input the core has; the
second is the effect of `out`, which has no condition. -/
theorem outlogAppendOnlyAndUnread : Obligations.OutlogAppendOnlyAndUnread := by
  refine ⟨fun s t h => ?_, fun s a hr hi => ?_, fun s t l h => ?_⟩
  · obtain ⟨taken, emitted, hmoves, -⟩ := step_streamFrame h
    obtain rfl | ⟨a, hi, rfl⟩ := hmoves.emitted_cases
    · exact .inl (hmoves.output.trans (List.append_nil _))
    · exact .inr ⟨a, hi, by rw [hmoves.output, BitVec.ofNat_toNat]⟩
  · exact ⟨_, (s.val a).setWidth 8, step_of_effect hr hi .out, by simp, rfl⟩
  · obtain ⟨taken, emitted, hmoves, hframe⟩ := step_streamFrame h
    refine ⟨emitted, hmoves.output, ?_⟩
    have hstep := hframe t.inbuf l
    rw [← hmoves.input] at hstep
    exact hstep

/-- Settles O36: both clauses are the stream frame of the step, the second one at the output the core has. -/
theorem inputConsumedOnlyByIn : Obligations.InputConsumedOnlyByIn := by
  intro s t h
  obtain ⟨taken, emitted, hmoves, hframe⟩ := step_streamFrame h
  obtain rfl | ⟨d, r, b, hi, hd, rfl, hreg⟩ := hmoves.taken_cases
  · refine ⟨.inl hmoves.input.symm, fun _ l => ?_⟩
    have hstep := hframe l s.outlog
    rw [← hmoves.output] at hstep
    exact hstep
  · refine ⟨.inr ⟨d, r, b, hi, (dest?_eq_some_iff d r).1 hd, hmoves.input, ?_⟩, fun hno => absurd ⟨d, hi⟩ hno⟩
    rw [hreg, BitVec.toNat_setWidth_of_le (by decide)]

/-- Settles O37: an instruction runs only at a pc of at most 32767, where the 16-bit advance is the natural sum. -/
theorem pcAfterEachInstruction : Obligations.PcAfterEachInstruction := by
  intro s t h
  obtain ⟨c, rfl⟩ | ⟨i, hi, heff⟩ := step_raise_or_effect h
  · exact ⟨fun _ => rfl, fun hnf => absurd rfl hnf⟩
  · refine ⟨fun hf => absurd hf (heff.not_faulted (step_running h)), fun _ => ⟨i, hi, ?_⟩⟩
    have adv {n : Nat} (hn : n ≤ 4) : (s.pc + BitVec.ofNat 16 n).toNat = s.pc.toNat + n := advance_toNat hi.pc_lt hn
    cases heff with
    | plain hdest hd hv =>
      cases i <;> simp only [plainResult?, reduceCtorEq] at hv <;> exact adv (Instr.len_le _)
    | mod => exact adv (by decide)
    | rmem => exact adv (by decide)
    | wmem => exact adv (by decide)
    | push => exact adv (by decide)
    | pop => exact adv (by decide)
    | out => exact adv (by decide)
    | inp => exact adv (by decide)
    | noop => exact adv (by decide)
    | halt => rfl
    | jmp => rfl
    | call => exact ⟨rfl, by simp [BitVec.ofNat_add]⟩
    | ret hs => exact hs
    | jtTaken ha => exact ⟨fun _ => rfl, fun h0 => absurd h0 ha⟩
    | jtNot ha => exact ⟨fun h0 => absurd ha h0, fun _ => adv (by decide)⟩
    | jfTaken ha => exact ⟨fun _ => rfl, fun h0 => absurd ha h0⟩
    | jfNot ha => exact ⟨fun h0 => absurd h0 ha, fun _ => adv (by decide)⟩

end Sys2Proof.Proofs

/-! # Memory (spec/20_memory.md)

What a write leaves in memory, and what the next fetch sees of it: the laws first, then the statements they settle. -/

/-! ## The step at an opcode word -/

namespace Sys2Proof

theorem decode_ret {op : Word} (h : op.toNat = 18) (ws : List Word) : decode (op :: ws) = .ok (.ret, ws) := by
  simp [decode, h]

theorem decode_noop {op : Word} (h : op.toNat = 21) (ws : List Word) : decode (op :: ws) = .ok (.noop, ws) := by
  simp [decode, h]

end Sys2Proof

namespace Sys2Proof.Claim

open Sys2Proof.Machine

/-- At an opcode word, the words the decoder is offered begin with it (R53). -/
theorem At.decodeAt {s : State} {op : Nat} (h : At s op) :
    ∃ w ws, w.toNat = op ∧ s.decodeAt = decode (w :: ws) := by
  obtain ⟨-, hpc, hop⟩ := h
  exact ⟨_, _, hop, congrArg decode (State.fetchWindow_in (Nat.lt_succ_of_le hpc))⟩

/-- An opcode word that decodes by itself, whatever words follow, is the instruction the step runs. -/
theorem At.step_opcode {s : State} {op : Nat} {i : Instr} (h : At s op)
    (hdec : ∀ {w : Word}, w.toNat = op → ∀ ws, decode (w :: ws) = .ok (i, ws)) : step s = exec i s := by
  obtain ⟨w, ws, hw, hat⟩ := h.decodeAt
  exact step_decode_ok h.1 (hat.trans (hdec hw ws))

/-- An illegal opcode word faults, whatever words follow (R46, R89). -/
theorem At.step_illegal {s : State} {op : Nat} (h : At s op) (hop : 22 ≤ op) :
    step s = .next (raise .badOpcode s) := by
  obtain ⟨w, ws, hw, hat⟩ := h.decodeAt
  exact step_decode_error h.1 (hat.trans (decode_illegal (by omega) ws))

end Sys2Proof.Claim

/-! ## What a write leaves -/

namespace Sys2Proof.Machine

/-- A write that answers leaves every other address, valid or not, reading as before (R27). -/
theorem State.memRead?_memWrite?_other {s t : State} {a a' v : Word} (h : s.memWrite? a v = some t) (ha : a' ≠ a) :
    t.memRead? a' = s.memRead? a' := by
  unfold State.memWrite? at h
  split at h
  · cases h
    have hne : a'.toNat ≠ a.toNat := fun e => ha (BitVec.eq_of_toNat_eq e)
    simp only [State.memRead?, Memory.readWord_writeWord_other _ _ hne]
  · cases h

/-- A store to the word behind the `wmem` leaves the pc at the stored value (R36, R76). -/
theorem Effect.at_stored {a b : Src} {s t : State} (h : Effect (.wmem a b) s t) (hr : s.runState = .running)
    (hwf : s.mem.wf = true) (ha : (s.val a).toNat = s.pc.toNat + 3) (hpc : s.pc.toNat + 3 ≤ 32767) :
    t.pc.toNat = s.pc.toNat + 3 ∧ Claim.At t (s.val b).toNat := by
  cases h with
  | plain hdest => cases hdest
  | wmem hrange =>
    have hnext : (s.pc + BitVec.ofNat 16 3).toNat = s.pc.toNat + 3 := advance_toNat (by omega) (by decide)
    refine ⟨hnext, hr, hnext ▸ hpc, ?_⟩
    rw [State.advance_pc, hnext, State.advance_mem, ← ha, Memory.readWord_writeWord_same _ hwf hrange]

end Sys2Proof.Machine

/-! ## The statements -/

namespace Sys2Proof.Proofs

open Sys2Proof.Machine Sys2Proof.Claim

/-- Settles O28: a word beyond the image is loaded as 0, which is the opcode of `halt`. -/
theorem untouchedMemoryHalts : Obligations.UntouchedMemoryHalts := by
  intro image s t hload hr hbeyond hpc hword
  obtain ⟨-, rfl⟩ := State.load_cases hload
  have hzero : t.mem.readWord t.pc.toNat = 0#16 := hword.trans (Memory.readWord_ofImage_beyond hbeyond)
  have hhalt : t.DecodesTo .halt := t.decodesTo_halt_iff.2 ⟨Nat.lt_succ_of_le hpc, by rw [hzero]; rfl⟩
  exact step_of_effect hr hhalt .halt

/-- Settles O29: `memWrite?` is one `writeWord` of a canonical memory, and answers in the same range as `memRead?`. -/
theorem memoryReadsWhatWasWritten : Obligations.MemoryReadsWhatWasWritten := by
  refine fun s a v hwf => ⟨fun ha => ?_, fun ha => ⟨State.memWrite?_out v ha, State.memRead?_out ha⟩⟩
  have ha' : a.toNat < 32768 := Nat.lt_succ_of_le ha
  have hwrite := State.memWrite?_in (s := s) v ha'
  refine ⟨_, hwrite, Memory.wf_writeWord v hwf ha', ?_, fun _ => State.memRead?_memWrite?_other hwrite, fun k hk => ?_,
    rfl⟩
  · rw [State.memRead?_in ha']
    exact congrArg some (Memory.readWord_writeWord_same v hwf ha')
  · exact Memory.readByte_writeWord_other _ _ (by omega) (by omega)

/-- Settles O32: the store stands at the advanced pc, and the next step decodes it there. -/
theorem nextFetchSeesTheStore : Obligations.NextFetchSeesTheStore := by
  intro s a b hr hwf hi ha hpc
  have heff := Effect.wmem (a := a) (b := b) (s := s) (by omega)
  obtain ⟨hnext, hat⟩ := heff.at_stored hr hwf ha hpc
  exact ⟨_, step_of_effect hr hi heff, hat, hnext,
    fun h => hat.step_opcode fun hw => decode_halt (hw.trans h),
    fun h => hat.step_opcode fun hw => decode_ret (hw.trans h),
    fun h => hat.step_opcode fun hw => decode_noop (hw.trans h),
    hat.step_illegal⟩

end Sys2Proof.Proofs

/-! # Encoding and decoding (spec/30_encoding.md)

What each shape of operand roles answers on the words an instruction is written in, which errors it can answer, and the
bit tests of the operand ranges: the laws first, then the statements they settle. -/

/-! ## The words of well-formed operands -/

namespace Sys2Proof

theorem takeValue_word {a : Src} (h : a.wf = true) (ws : List Word) : takeValue (a.word :: ws) = .ok (a, ws) :=
  takeValue_cons_some (srcOf?_word h) ws

theorem rolesV_encode (mk : Src → Instr) {a : Src} (h : a.wf = true) (rest : List Word) :
    rolesV mk (a.word :: rest) = .ok (mk a, rest) := by
  simp only [rolesV, takeValue_word h]

theorem rolesVV_encode (mk : Src → Src → Instr) {a b : Src} (h : (a.wf && b.wf) = true) (rest : List Word) :
    rolesVV mk (a.word :: b.word :: rest) = .ok (mk a b, rest) := by
  obtain ⟨ha, hb⟩ := Bool.and_eq_true_iff.1 h
  simp only [rolesVV, takeValue_word ha, rolesV_encode (mk a) hb]

theorem rolesDV_encode (mk : Word → Src → Instr) (d : Word) {a : Src} (h : a.wf = true) (rest : List Word) :
    rolesDV mk (d :: a.word :: rest) = .ok (mk d a, rest) := rolesV_encode (mk d) h rest

theorem rolesDVV_encode (mk : Word → Src → Src → Instr) (d : Word) {a b : Src} (h : (a.wf && b.wf) = true)
    (rest : List Word) : rolesDVV mk (d :: a.word :: b.word :: rest) = .ok (mk d a b, rest) :=
  rolesVV_encode (mk d) h rest

/-- Encoding then decoding (R43, R44), by the operand roles of the instruction. -/
theorem decode_encode (i : Instr) (rest : List Word) (h : i.wf = true) :
    decode (encode i ++ rest) = .ok (i, rest) := by
  cases i with
  | halt | ret | noop | pop | inp => rfl
  | push | jmp | call | out => exact rolesV_encode _ h rest
  | jt | jf | wmem => exact rolesVV_encode _ h rest
  | set | not | rmem => exact rolesDV_encode _ _ h rest
  | eq | gt | add | mult | mod | and | or => exact rolesDVV_encode _ _ h rest

/-- The `len` column (R47) is the number of words in the format (R44). -/
theorem length_encode (i : Instr) : (encode i).length = i.len := by
  cases i <;> rfl

/-! ## The errors of the operand phase

Only the opcode word can be a `badOpcode`: once it is legal, every failure is one of an operand. -/

theorem takeDest_error {ws : List Word} {e : DecodeError} (h : takeDest ws = .error e) : e ≠ .badOpcode := by
  cases ws with
  | nil => cases h; decide
  | cons w ws => cases h

theorem takeValue_error {ws : List Word} {e : DecodeError} (h : takeValue ws = .error e) : e ≠ .badOpcode := by
  unfold takeValue at h
  split at h
  · cases h; decide
  · split at h
    · cases h
    · cases h; decide

theorem rolesD_error {mk : Word → Instr} {ws : List Word} {e : DecodeError} (h : rolesD mk ws = .error e) :
    e ≠ .badOpcode := by
  unfold rolesD at h
  split at h
  · next hd => cases h; exact takeDest_error hd
  · cases h

theorem rolesV_error {mk : Src → Instr} {ws : List Word} {e : DecodeError} (h : rolesV mk ws = .error e) :
    e ≠ .badOpcode := by
  unfold rolesV at h
  split at h
  · next hv => cases h; exact takeValue_error hv
  · cases h

theorem rolesVV_error {mk : Src → Src → Instr} {ws : List Word} {e : DecodeError} (h : rolesVV mk ws = .error e) :
    e ≠ .badOpcode := by
  unfold rolesVV at h
  split at h
  · next hv => cases h; exact takeValue_error hv
  · exact rolesV_error h

theorem rolesDV_error {mk : Word → Src → Instr} {ws : List Word} {e : DecodeError} (h : rolesDV mk ws = .error e) :
    e ≠ .badOpcode := by
  unfold rolesDV at h
  split at h
  · next hd => cases h; exact takeDest_error hd
  · exact rolesV_error h

theorem rolesDVV_error {mk : Word → Src → Src → Instr} {ws : List Word} {e : DecodeError}
    (h : rolesDVV mk ws = .error e) : e ≠ .badOpcode := by
  unfold rolesDVV at h
  split at h
  · next hd => cases h; exact takeDest_error hd
  · exact rolesVV_error h

/-- The decoder blames the opcode word only when it is illegal (R46); the converse is `decode_illegal`. -/
theorem illegal_of_decode_badOpcode {w : Word} {ws : List Word} (h : decode (w :: ws) = .error .badOpcode) :
    22 ≤ w.toNat := by
  simp only [decode] at h
  split at h
  case h_23 =>
    simp only [imp_false] at *
    omega
  case h_1 | h_19 | h_22 => cases h
  case h_4 | h_21 => exact absurd rfl (rolesD_error h)
  case h_3 | h_7 | h_18 | h_20 => exact absurd rfl (rolesV_error h)
  case h_8 | h_9 | h_17 => exact absurd rfl (rolesVV_error h)
  case h_2 | h_15 | h_16 => exact absurd rfl (rolesDV_error h)
  case h_5 | h_6 | h_10 | h_11 | h_12 | h_13 | h_14 => exact absurd rfl (rolesDVV_error h)

/-! ## The bit tests of the operand ranges (R40) -/

theorem bit15_iff (w : Word) : w.getLsbD 15 = true ↔ 32768 ≤ w.toNat := by
  have h : w.getLsbD 15 = decide (32768 ≤ w.toNat) := BitVec.msb_eq_decide w
  rw [h, decide_eq_true_iff]

/-- Bits 14..3 as a number. -/
theorem extractLsb'_3_12_toNat (w : Word) : (w.extractLsb' 3 12).toNat = w.toNat / 8 % 4096 := by
  rw [BitVec.extractLsb'_toNat, Nat.shiftRight_eq_div_pow]

theorem bits14to3_eq_zero_iff (w : Word) : w.extractLsb' 3 12 = 0#12 ↔ w.toNat / 8 % 4096 = 0 := by
  rw [← BitVec.toNat_inj, extractLsb'_3_12_toNat]
  rfl

/-- Bits 2..0 as a number. -/
theorem extractLsb'_0_3_toNat (w : Word) : (w.extractLsb' 0 3).toNat = w.toNat % 8 := by
  rw [BitVec.extractLsb'_toNat, Nat.shiftRight_zero]

/-- Bits 14..3 are 0 exactly when the word is one of the eight lowest of its half. -/
theorem isReg_iff_bits (w : Word) : Claim.IsReg w ↔ w.getLsbD 15 = true ∧ w.extractLsb' 3 12 = 0#12 := by
  have := w.isLt
  rw [Claim.IsReg, bit15_iff, bits14to3_eq_zero_iff]
  omega

theorem isInvalid_iff_bits (w : Word) : Claim.IsInvalid w ↔ w.getLsbD 15 = true ∧ w.extractLsb' 3 12 ≠ 0#12 := by
  have := w.isLt
  rw [Claim.IsInvalid, bit15_iff, Ne, bits14to3_eq_zero_iff]
  omega

end Sys2Proof

/-! ## The opcode word a step blames -/

namespace Sys2Proof.Machine

/-- The cause `badOpcode` comes from the decoder alone: no instruction raises it in its execute phase (R46, R54). -/
theorem step_badOpcode {s : State} (h : step s = .next (raise .badOpcode s)) : s.decodeAt = .error .badOpcode := by
  obtain ⟨hr, ⟨e, he, hraise⟩ | ⟨i, rest, -, ⟨c, hc, hraise⟩ | heff⟩⟩ := step_next_cases h
  · have hcause := raise_injective hraise
    cases e with
    | badOpcode => exact he
    | outOfWords | badOperand => cases hcause
  · cases raise_injective hraise
    cases hc
  · exact absurd rfl (heff.not_faulted hr)

end Sys2Proof.Machine

namespace Sys2Proof.Claim

open Sys2Proof.Machine

/-- At an opcode word, a fault record holds it (R17). -/
theorem At.memRead?_pc {s : State} {op : Nat} (h : At s op) : s.memRead? s.pc = some (s.mem.readWord s.pc.toNat) := by
  obtain ⟨-, hpc, -⟩ := h
  exact State.memRead?_in (Nat.lt_succ_of_le hpc)

end Sys2Proof.Claim

/-! ## The statements -/

namespace Sys2Proof.Proofs

open Sys2Proof.Machine Sys2Proof.Claim

/-- Settles O1, by the operand roles of each instruction. -/
theorem decodeUndoesEncode : Obligations.DecodeUndoesEncode := decode_encode

/-- Settles O2: `decode_ok` gives the words read, and the format has as many words as the `len` column says. -/
theorem encodeUndoesDecode : Obligations.EncodeUndoesDecode := by
  intro ws rest i h
  obtain ⟨hwf, hws⟩ := decode_ok h
  exact ⟨hwf, hws, length_encode i⟩

/-- Settles O4: the bit tests are read as numbers, and `classify` answers by the range. -/
theorem classifyHasThreeRanges : Obligations.ClassifyHasThreeRanges := by
  refine fun w => ⟨⟨?_, fun h => classify_literal (Nat.lt_succ_of_le h)⟩, ⟨isReg_iff_bits w, fun hreg => ?_⟩,
    isInvalid_iff_bits w, classify_invalid⟩
  · rw [← Bool.not_eq_true, bit15_iff]
    omega
  · obtain ⟨hlo, hhi⟩ := hreg
    obtain hlit | ⟨i, hi⟩ | hinv := word_cases w
    · omega
    · refine ⟨i, classify_register hi, by omega, ?_⟩
      rw [extractLsb'_0_3_toNat]
      omega
    · omega

/-- Settles O8: the decoder blames the opcode word exactly when it is illegal, and nothing else raises `badOpcode`. -/
theorem illegalOpcodeFaults : Obligations.IllegalOpcodeFaults := by
  refine fun s op hat => ⟨⟨hat.step_illegal, fun h => ?_⟩, fun hop => ?_⟩
  · obtain ⟨w, ws, rfl, hdec⟩ := hat.decodeAt
    exact illegal_of_decode_badOpcode (hdec.symm.trans (step_badOpcode h))
  · exact ⟨_, _, hat.step_illegal hop, rfl, rfl, rfl, rfl, hat.memRead?_pc⟩

/-- Settles O3: the words of each list are the table's, so each reading is an evaluation of the decoder. -/
theorem writtenOutWordsDecode : Obligations.WrittenOutWordsDecode :=
  ⟨rfl, rfl, rfl, rfl, rfl, rfl, rfl, rfl⟩

/-- Settles O5, range by range. -/
theorem valueRoleResolution : Obligations.ValueRoleResolution := by
  refine fun s w => ⟨fun hlit => ?_, fun i hreg => ?_, fun hinv ws => ⟨?_, rfl⟩⟩
  · rw [srcOf?_literal (Nat.lt_succ_of_le hlit)]; rfl
  · rw [srcOf?_register hreg]; rfl
  · exact takeValue_cons_none (srcOf?_invalid hinv) ws

end Sys2Proof.Proofs

/-! # The execution cycle (spec/40_execution_cycle.md)

The words a fetch reads, the loop over the operands that R53 writes out, and what a step can be: the laws first, then the
statements they settle. -/

/-! ## The words at the pc -/

namespace Sys2Proof

/-- The decoder accepts a list of words as an instruction exactly when it is well-formed and the list begins with its
words. -/
theorem exists_decode_ok_iff (ws : List Word) (i : Instr) :
    (∃ rest, decode ws = .ok (i, rest)) ↔ i.wf = true ∧ encode i <+: ws := by
  constructor
  · rintro ⟨rest, h⟩
    obtain ⟨hwf, rfl⟩ := decode_ok h
    exact ⟨hwf, rest, rfl⟩
  · rintro ⟨hwf, rest, rfl⟩
    exact ⟨rest, decode_encode i rest hwf⟩

end Sys2Proof

namespace Sys2Proof.Machine

theorem Memory.readWords_getElem? (m : Memory) (p n k : Nat) :
    (m.readWords p n)[k]? = if k < n ∧ p + k < 32768 then some (m.readWord (p + k)) else none := by
  induction n generalizing p k with
  | zero => simp
  | succ n ih =>
    by_cases hp : p < 32768
    · rw [Memory.readWords_in m n hp]
      cases k with
      | zero => simp [hp]
      | succ k => simp only [List.getElem?_cons_succ, ih, Nat.succ_lt_succ_iff, Nat.add_assoc, Nat.add_comm 1 k]
    · rw [Memory.readWords_out m _ (by omega), List.getElem?_nil, if_neg (by omega)]

/-- The decoder reads an instruction exactly where its words stand, from the pc on and within the memory (R53). -/
theorem State.decodesTo_iff (s : State) (i : Instr) :
    s.DecodesTo i ↔ i.wf = true ∧ ∀ k, (h : k < (encode i).length) →
      s.pc.toNat + k < 32768 ∧ s.mem.readWord (s.pc.toNat + k) = (encode i)[k] := by
  have hread (k : Nat) (hk : k < (encode i).length) : s.fetchWindow[k]? = some (encode i)[k] ↔
      s.pc.toNat + k < 32768 ∧ s.mem.readWord (s.pc.toNat + k) = (encode i)[k] := by
    have hlen : (encode i).length ≤ 4 := (length_encode i).trans_le i.len_le
    have hk4 : k < 4 := by omega
    simp [State.fetchWindow, Memory.readWords_getElem?, hk4]
  simp only [← hread, ← List.prefix_iff_getElem?]
  exact exists_decode_ok_iff s.fetchWindow i

/-- The words of the instruction the decoder reads are those that stand from the pc on. -/
theorem State.DecodesTo.encode_eq {s : State} {i : Instr} (h : s.DecodesTo i) :
    encode i = (List.range (encode i).length).map fun k => s.mem.readWord (s.pc.toNat + k) := by
  obtain ⟨-, hwords⟩ := (s.decodesTo_iff i).1 h
  exact List.ext_getElem (by simp) fun k hk _ => by simpa using (hwords k hk).2.symm

theorem State.DecodesTo.wf {s : State} {i : Instr} (h : s.DecodesTo i) : i.wf = true := ((s.decodesTo_iff i).1 h).1

/-! ## The operand loop -/

/-- The loop of R53 over the operand words that stand from address `p` on, one for each role: the error of the first
operand that faults, its range before its value; nothing where all of them pass. -/
def operandError? (m : Memory) : Nat → List Bool → Option DecodeError
  | _, [] => none
  | p, isValue :: rs =>
    if 32768 ≤ p then some .outOfWords
    else if isValue = true ∧ 32776 ≤ (m.readWord p).toNat then some .badOperand
    else operandError? m (p + 1) rs

section

variable {m : Memory} {p : Nat} {rs : List Bool}

@[simp] theorem operandError?_nil (m : Memory) (p : Nat) : operandError? m p [] = none := rfl

theorem operandError?_beyond {isValue : Bool} (hp : 32768 ≤ p) :
    operandError? m p (isValue :: rs) = some .outOfWords := if_pos hp

theorem operandError?_invalid (hp : p < 32768) (hw : 32776 ≤ (m.readWord p).toNat) :
    operandError? m p (true :: rs) = some .badOperand := by
  simp [operandError?, Nat.not_le.2 hp, hw]

theorem operandError?_passes {isValue : Bool} (hp : p < 32768)
    (hw : isValue = true → ¬ 32776 ≤ (m.readWord p).toNat) :
    operandError? m p (isValue :: rs) = operandError? m (p + 1) rs := by
  rw [operandError?, if_neg (Nat.not_le.2 hp), if_neg fun h => hw h.1 h.2]

end

/-! The decoder's operand phase is that loop. -/

theorem takeDest_operand (m : Memory) (p n : Nat) :
    (∃ e, takeDest (m.readWords p (n + 1)) = .error e ∧ ∀ rs, operandError? m p (false :: rs) = some e) ∨
      ∃ d, takeDest (m.readWords p (n + 1)) = .ok (d, m.readWords (p + 1) n) ∧
        ∀ rs, operandError? m p (false :: rs) = operandError? m (p + 1) rs := by
  rw [takeDest_readWords]
  by_cases hp : p < 32768
  · exact .inr ⟨_, if_pos hp, fun _ => operandError?_passes hp nofun⟩
  · exact .inl ⟨_, if_neg hp, fun _ => operandError?_beyond (Nat.le_of_not_lt hp)⟩

theorem takeValue_operand (m : Memory) (p n : Nat) :
    (∃ e, takeValue (m.readWords p (n + 1)) = .error e ∧ ∀ rs, operandError? m p (true :: rs) = some e) ∨
      ∃ v, takeValue (m.readWords p (n + 1)) = .ok (v, m.readWords (p + 1) n) ∧
        ∀ rs, operandError? m p (true :: rs) = operandError? m (p + 1) rs := by
  by_cases hp : p < 32768
  · rw [Memory.readWords_in m n hp]
    cases hv : srcOf? (m.readWord p) with
    | none => exact .inl ⟨_, takeValue_cons_none hv _, fun _ => operandError?_invalid hp ((srcOf?_eq_none_iff _).1 hv)⟩
    | some v =>
      refine .inr ⟨v, takeValue_cons_some hv _, fun _ => operandError?_passes hp fun _ hw => ?_⟩
      rw [srcOf?_invalid hw] at hv
      cases hv
  · have hp : 32768 ≤ p := Nat.le_of_not_lt hp
    rw [Memory.readWords_out m _ hp]
    exact .inl ⟨_, rfl, fun _ => operandError?_beyond hp⟩

theorem rolesD_error_iff (mk : Word → Instr) (m : Memory) (p n : Nat) (e : DecodeError) :
    rolesD mk (m.readWords p (n + 1)) = .error e ↔ operandError? m p [false] = some e := by
  obtain ⟨e', htake, hloop⟩ | ⟨d, htake, hloop⟩ := takeDest_operand m p n
  · simp [rolesD, htake, hloop]
  · simp [rolesD, htake, hloop]

theorem rolesV_error_iff (mk : Src → Instr) (m : Memory) (p n : Nat) (e : DecodeError) :
    rolesV mk (m.readWords p (n + 1)) = .error e ↔ operandError? m p [true] = some e := by
  obtain ⟨e', htake, hloop⟩ | ⟨v, htake, hloop⟩ := takeValue_operand m p n
  · simp [rolesV, htake, hloop]
  · simp [rolesV, htake, hloop]

theorem rolesVV_error_iff (mk : Src → Src → Instr) (m : Memory) (p n : Nat) (e : DecodeError) :
    rolesVV mk (m.readWords p (n + 2)) = .error e ↔ operandError? m p [true, true] = some e := by
  obtain ⟨e', htake, hloop⟩ | ⟨v, htake, hloop⟩ := takeValue_operand m p (n + 1)
  · simp [rolesVV, htake, hloop]
  · simp only [rolesVV, htake, hloop, rolesV_error_iff]

theorem rolesDV_error_iff (mk : Word → Src → Instr) (m : Memory) (p n : Nat) (e : DecodeError) :
    rolesDV mk (m.readWords p (n + 2)) = .error e ↔ operandError? m p [false, true] = some e := by
  obtain ⟨e', htake, hloop⟩ | ⟨d, htake, hloop⟩ := takeDest_operand m p (n + 1)
  · simp [rolesDV, htake, hloop]
  · simp only [rolesDV, htake, hloop, rolesV_error_iff]

theorem rolesDVV_error_iff (mk : Word → Src → Src → Instr) (m : Memory) (p n : Nat) (e : DecodeError) :
    rolesDVV mk (m.readWords p (n + 3)) = .error e ↔ operandError? m p [false, true, true] = some e := by
  obtain ⟨e', htake, hloop⟩ | ⟨d, htake, hloop⟩ := takeDest_operand m p (n + 2)
  · simp [rolesDVV, htake, hloop]
  · simp only [rolesDVV, htake, hloop, rolesVV_error_iff]

/-- Behind a legal opcode word, the decoder fails exactly as the loop over the row's operand roles does (R43, R53). -/
theorem decode_error_iff {op : Word} (hop : op.toNat ≤ 21) (m : Memory) (p : Nat) (e : DecodeError) :
    decode (op :: m.readWords p 3) = .error e ↔ operandError? m p (Claim.roles op.toNat) = some e := by
  simp only [decode]
  split
  case h_23 =>
    simp only [imp_false] at *
    omega
  case h_1 h | h_19 h | h_22 h => simp [h, Claim.roles]
  case h_4 h | h_21 h => rw [h]; exact rolesD_error_iff _ m p 2 e
  case h_3 h | h_7 h | h_18 h | h_20 h => rw [h]; exact rolesV_error_iff _ m p 2 e
  case h_8 h | h_9 h | h_17 h => rw [h]; exact rolesVV_error_iff _ m p 1 e
  case h_2 h | h_15 h | h_16 h => rw [h]; exact rolesDV_error_iff _ m p 1 e
  case h_5 h | h_6 h | h_10 h | h_11 h | h_12 h | h_13 h | h_14 h => rw [h]; exact rolesDVV_error_iff _ m p 0 e

end Sys2Proof.Machine

namespace Sys2Proof

/-- An instruction has one word for each operand role of its row, behind its opcode word (R43, R44). -/
theorem length_roles_of_encode {i : Instr} {op : Word} {ws : List Word} (h : encode i = op :: ws) :
    (Claim.roles op.toNat).length = ws.length := by
  cases i <;> cases h <;> rfl

end Sys2Proof

namespace Sys2Proof.Claim

open Sys2Proof.Machine

section

variable {s : State} {op k : Nat}

/-- At a legal opcode word, the decode phase fails exactly as the loop over the operands does. -/
theorem At.decodeAt_error_iff (h : At s op) (hop : op ≤ 21) (e : DecodeError) :
    s.decodeAt = .error e ↔ operandError? s.mem (s.pc.toNat + 1) (roles op) = some e := by
  obtain ⟨-, hpc, rfl⟩ := h
  rw [State.decodeAt, State.fetchWindow_in (Nat.lt_succ_of_le hpc), decode_error_iff hop]

theorem At.step_operandError (h : At s op) (hop : op ≤ 21) {e : DecodeError}
    (he : operandError? s.mem (s.pc.toNat + 1) (roles op) = some e) :
    step s = .next (raise (causeOfDecodeError e) s) :=
  step_decode_error h.1 ((h.decodeAt_error_iff hop e).2 he)

/-- Where the loop over the operands meets no fault, an instruction is decoded (R53). -/
theorem At.decodesTo_of_passed (h : At s op) (hop : op ≤ 21)
    (hnone : operandError? s.mem (s.pc.toNat + 1) (roles op) = none) : ∃ i, s.DecodesTo i := by
  cases hdec : s.decodeAt with
  | ok r => exact ⟨r.1, r.2, hdec⟩
  | error e =>
    have he := (h.decodeAt_error_iff hop e).1 hdec
    rw [hnone] at he
    cases he

/-- The words of the instruction decoded at an opcode word are that word and the operand words of its row. -/
theorem At.encode_eq (h : At s op) {i : Instr} (hi : s.DecodesTo i) :
    encode i = s.mem.readWord s.pc.toNat :: (List.range (roles op).length).map fun k => word s (k + 1) := by
  obtain ⟨-, -, rfl⟩ := h
  have henc := hi.encode_eq
  obtain ⟨w, ws, hws⟩ : ∃ w ws, encode i = w :: ws := by cases i <;> exact ⟨_, _, rfl⟩
  rw [hws, List.length_cons, List.range_succ_eq_map, List.map_cons, List.map_map, Nat.add_zero] at henc
  obtain ⟨rfl, htail⟩ := List.cons.inj henc
  rw [hws, length_roles_of_encode hws]
  exact congrArg _ htail

/-- The loop goes past the operands that pass. -/
theorem operandError?_passedBefore (hpass : PassedBefore s op (k + 1)) (hk : k ≤ (roles op).length) :
    operandError? s.mem (s.pc.toNat + 1) (roles op) =
      operandError? s.mem (s.pc.toNat + (k + 1)) ((roles op).drop k) := by
  induction k with
  | zero => rfl
  | succ k ih =>
    obtain ⟨hpc, hval⟩ := hpass (k + 1) (by omega) (by omega)
    rw [ih (fun j h1 hj => hpass j h1 (by omega)) (by omega), List.drop_eq_getElem_cons hk]
    refine operandError?_passes (by omega) fun hrole => hval ?_
    rw [Nat.add_sub_cancel, List.getElem?_eq_getElem hk, hrole]

theorem FirstBeyond.operandError?_eq (h : FirstBeyond s op k) :
    operandError? s.mem (s.pc.toNat + 1) (roles op) = some .outOfWords := by
  obtain ⟨h1, hk, hpass, hout⟩ := h
  obtain ⟨k, rfl⟩ := Nat.exists_eq_succ_of_ne_zero (Nat.ne_zero_of_lt h1)
  rw [operandError?_passedBefore hpass (by omega), List.drop_eq_getElem_cons hk]
  exact operandError?_beyond hout

theorem FirstInvalid.operandError?_eq (h : FirstInvalid s op k) :
    operandError? s.mem (s.pc.toNat + 1) (roles op) = some .badOperand := by
  obtain ⟨h1, hk, hpass, hin, hrole, hinv⟩ := h
  obtain ⟨k, rfl⟩ := Nat.exists_eq_succ_of_ne_zero (Nat.ne_zero_of_lt h1)
  rw [Nat.succ_sub_one, List.getElem?_eq_getElem hk] at hrole
  rw [operandError?_passedBefore hpass (by omega), List.drop_eq_getElem_cons hk, Option.some.inj hrole]
  exact operandError?_invalid (by omega) hinv

theorem operandError?_allPassed (hpass : PassedBefore s op ((roles op).length + 1)) :
    operandError? s.mem (s.pc.toNat + 1) (roles op) = none := by
  rw [operandError?_passedBefore hpass le_rfl, List.drop_length, operandError?_nil]

end

end Sys2Proof.Claim

/-! ## The fault record -/

namespace Sys2Proof.Machine

/-- `raise` writes `run_state` and the record of the step, and nothing else (R57, R95). -/
theorem raise_eq_recordOf (c : Cause) (s : State) :
    raise c s = { s with runState := .faulted, fault := some (Claim.recordOf s c.kind c) } := by
  simp only [raise, Claim.recordOf, State.memRead?, Nat.lt_succ_iff]

end Sys2Proof.Machine

/-! ## The statements -/

namespace Sys2Proof.Proofs

open Sys2Proof.Machine Sys2Proof.Claim

/-- Settles O6: the decode phase is the loop over the operands, which goes past those that pass and stops at the first
that does not. -/
theorem decodePhaseFaultsInOrder : Obligations.DecodePhaseFaultsInOrder := by
  refine fun s hr => ⟨fun hpc => step_decode_error hr (State.decodeAt_out hpc),
    fun op hat => ⟨hat.step_illegal, fun hop => ⟨fun k hbeyond => ?_, fun k hinvalid => ?_, fun hpass => ?_⟩⟩⟩
  · exact hat.step_operandError hop hbeyond.operandError?_eq
  · exact hat.step_operandError hop hinvalid.operandError?_eq
  · obtain ⟨i, hi⟩ := hat.decodesTo_of_passed hop (operandError?_allPassed hpass)
    exact ⟨i, hi, hi.wf, hi.step hr, hat.encode_eq hi⟩

/-- Settles O10: a step is an entry by `raise`, which writes two components, or an effect, which writes no record and
ends `Halted` for `halt` alone. -/
theorem faultsArePrecise : Obligations.FaultsArePrecise := by
  intro s t h
  obtain ⟨c, rfl⟩ | ⟨i, hi, heff⟩ := step_raise_or_effect h
  · exact .inl ⟨c, rfl, raise_eq_recordOf c s⟩
  · refine .inr ⟨?_, heff.fault, i, hi, exec_of_effect heff⟩
    obtain ⟨rfl, ht⟩ | ⟨hne, ht⟩ := heff.runState
    · exact .inr ⟨ht, hi⟩
    · exact .inl ⟨ht.trans (step_running h), fun hhalt => hne (hi.unique hhalt)⟩

/-- Settles O17: the only answers of `step` that are no next state are the three stops of O19. -/
theorem stepExistsExactly : Obligations.StepExistsExactly := by
  intro s
  obtain ⟨hhalted, hfaulted, hstalled, hrefused⟩ := stopsAreExactlyThree s
  constructor
  · rintro ⟨t, h⟩
    have hr := step_running h
    refine ⟨hr, fun hwaits => ?_⟩
    rw [hstalled.2 ⟨hr, hwaits⟩] at h
    cases h
  · rintro ⟨hr, hnot⟩
    cases h : step s with
    | next t => exact ⟨t, rfl⟩
    | refused r => exact absurd h (hrefused r)
    | fault f =>
      cases f with
      | alreadyHalted => cases hr.symm.trans (hhalted.1 h)
      | alreadyFaulted => cases hr.symm.trans (hfaulted.1 h)
      | stalledOnInput => exact absurd (hstalled.1 h).2 hnot

/-- Settles O7: the words at the pc decode to the instruction, and the step is its meaning. -/
theorem stepRunsDecodedInstruction : Obligations.StepRunsDecodedInstruction := by
  intro s i hr hwf hend hwords
  have hi : s.DecodesTo i := (s.decodesTo_iff i).2 ⟨hwf, fun k hk => ⟨by omega, hwords k hk⟩⟩
  exact hi.step hr

end Sys2Proof.Proofs

/-! # Data movement and the stack (spec/41_set_push_pop.md)

What is left of a step once the opcode word is read, one law for each shape of operand roles; then the statements they
settle. -/

/-! ## The rows of the table -/

namespace Sys2Proof

theorem decode_set {op : Word} (h : op.toNat = 1) (ws : List Word) : decode (op :: ws) = rolesDV .set ws := by
  simp [decode, h]

theorem decode_pop {op : Word} (h : op.toNat = 3) (ws : List Word) : decode (op :: ws) = rolesD .pop ws := by
  simp [decode, h]

end Sys2Proof

namespace Sys2Proof.Machine

open Sys2Proof.Claim

/-! ## The operands in numbers -/

/-- The operand a value word stands for has the effective value of that word (R41). -/
theorem val_of_srcOf? {w : Word} {v : Src} (h : srcOf? w = some v) (s : State) : s.val v = value s w := by
  obtain hw | ⟨r, hw⟩ | hw := word_cases w
  · rw [srcOf?_literal hw] at h
    cases h
    exact (if_pos (Nat.le_of_lt_succ hw)).symm
  · rw [srcOf?_register hw] at h
    cases h
    have hr : regOf w = r := Fin.ext (show w.toNat % 8 = r.val by omega)
    rw [value, if_neg (by omega), hr]
    rfl
  · rw [srcOf?_invalid hw] at h
    cases h

/-- The destination check, by the range of the word (R42, R54). -/
theorem withDest_eq (d : Word) (s : State) (body : RegIx → Host.Outcome State Fault Refusal) :
    withDest d s body =
      if d.toNat < 32768 ∨ 32775 < d.toNat then .next (raise .destNotRegister s) else body (regOf d) := by
  by_cases hd : d.toNat < 32768 ∨ 32775 < d.toNat
  · rw [if_pos hd, withDest_none ((dest?_eq_none_iff d).2 hd)]
  · rw [if_neg hd]
    exact withDest_some ((dest?_eq_some_iff d _).2 (show d.toNat = 32768 + d.toNat % 8 by omega)) s body

/-- The common end of the instructions with a destination, in the numbers of the statements: at any pc, the 16-bit
advance is the word of the natural sum (R55). -/
theorem setReg_advance (s : State) (r : RegIx) (v : Word) (n : Nat) : (s.setReg r v).advance n = wrote s r v n := by
  have hpc : s.pc + BitVec.ofNat 16 n = BitVec.ofNat 16 (s.pc.toNat + n) := by simp [BitVec.ofNat_add]
  simp only [State.advance, State.setPc, State.setReg, wrote, hpc]

/-! ## What a step does with the decoder's answer -/

/-- The rest of a step of a `Running` core, once the decode phase has answered: execute (R54), or enter `Faulted`
(R95). -/
def State.afterDecode (s : State) : Except DecodeError (Instr × List Word) → Host.Outcome State Fault Refusal
  | .ok (i, _) => exec i s
  | .error e => .next (raise (causeOfDecodeError e) s)

theorem step_eq_afterDecode {s : State} (h : s.runState = .running) : step s = s.afterDecode s.decodeAt := by
  cases hd : s.decodeAt with
  | error e => exact step_decode_error h hd
  | ok r => exact step_decode_ok h hd

section

variable (s : State) (p n : Nat)

/-- The role `dest` reads one word and leaves its range to the instruction (R42). -/
theorem afterDecode_rolesD (mk : Word → Instr) :
    s.afterDecode (rolesD mk (s.mem.readWords p (n + 1))) =
      if 32767 < p then .next (raise .memRange s) else exec (mk (s.mem.readWord p)) s := by
  by_cases hp : 32767 < p
  · rw [if_pos hp, Memory.readWords_out _ _ hp]
    rfl
  · rw [if_neg hp, Memory.readWords_in _ _ (by omega)]
    rfl

/-- The role `value`: its range fault, then its `BadOperand`, then an instruction that uses the operand by its effective
value alone. -/
theorem afterDecode_rolesV {mk : Src → Instr} {own : Word → Host.Outcome State Fault Refusal}
    (hexec : ∀ v, exec (mk v) s = own (s.val v)) :
    s.afterDecode (rolesV mk (s.mem.readWords p (n + 1))) =
      if 32767 < p then .next (raise .memRange s)
      else if 32776 ≤ (s.mem.readWord p).toNat then .next (raise .badOperand s)
      else own (value s (s.mem.readWord p)) := by
  by_cases hp : 32767 < p
  · rw [if_pos hp, Memory.readWords_out _ _ hp]
    rfl
  · rw [if_neg hp, Memory.readWords_in _ _ (by omega), rolesV]
    cases hv : srcOf? (s.mem.readWord p) with
    | none =>
      rw [if_pos ((srcOf?_eq_none_iff _).1 hv), takeValue_cons_none hv]
      rfl
    | some v =>
      have hw : ¬ 32776 ≤ (s.mem.readWord p).toNat := fun hw => nomatch hv.symm.trans (srcOf?_invalid hw)
      rw [if_neg hw, takeValue_cons_some hv, ← val_of_srcOf? hv]
      exact hexec v

/-- The roles `dest, value`: the word of the destination, then the role `value`. -/
theorem afterDecode_rolesDV (mk : Word → Src → Instr) :
    s.afterDecode (rolesDV mk (s.mem.readWords p (n + 2))) =
      if 32767 < p then .next (raise .memRange s)
      else s.afterDecode (rolesV (mk (s.mem.readWord p)) (s.mem.readWords (p + 1) (n + 1))) := by
  by_cases hp : 32767 < p
  · rw [if_pos hp, Memory.readWords_out _ _ hp]
    rfl
  · rw [if_neg hp, Memory.readWords_in _ _ (by omega)]
    rfl

end

end Sys2Proof.Machine

/-! ## The step at an opcode word with operands -/

namespace Sys2Proof.Claim

open Sys2Proof.Machine

section

variable {s : State} {op : Nat}

/-- At the opcode word of a row, the step reads the row's roles from the words behind it (R48, R53). -/
theorem At.step_roles (h : At s op) {shape : List Word → Except DecodeError (Instr × List Word)}
    (hdec : ∀ {w : Word}, w.toNat = op → ∀ ws, decode (w :: ws) = shape ws) :
    step s = s.afterDecode (shape (s.mem.readWords (s.pc.toNat + 1) 3)) := by
  obtain ⟨hr, hpc, hop⟩ := h
  rw [step_eq_afterDecode hr, State.decodeAt, State.fetchWindow_in (Nat.lt_succ_of_le hpc), hdec hop]

/-- The step of a row with the role `dest`. -/
theorem At.step_eq_stepD (h : At s op) {mk : Word → Instr} {own : RegIx → Host.Outcome State Fault Refusal}
    (hdec : ∀ {w : Word}, w.toNat = op → ∀ ws, decode (w :: ws) = rolesD mk ws)
    (hexec : ∀ d, exec (mk d) s = withDest d s own) : step s = stepD s own := by
  rw [h.step_roles hdec, afterDecode_rolesD, hexec, withDest_eq]
  rfl

/-- The step of a row with the roles `dest, value`. -/
theorem At.step_eq_stepDV (h : At s op) {mk : Word → Src → Instr}
    {own : RegIx → Word → Host.Outcome State Fault Refusal}
    (hdec : ∀ {w : Word}, w.toNat = op → ∀ ws, decode (w :: ws) = rolesDV mk ws)
    (hexec : ∀ d v, exec (mk d v) s = withDest d s fun r => own r (s.val v)) : step s = stepDV s own := by
  have hvalue := afterDecode_rolesV (own := fun v => withDest (word s 1) s fun r => own r v) s (s.pc.toNat + 2) 1
    (hexec (word s 1))
  rw [withDest_eq] at hvalue
  rw [h.step_roles hdec, afterDecode_rolesDV]
  exact congrArg (ite (32767 < s.pc.toNat + 1) (.next (raise .memRange s))) hvalue

end

end Sys2Proof.Claim

/-! ## The instructions' own part -/

namespace Sys2Proof.Machine

open Sys2Proof.Claim

/-- An instruction that only writes its destination, in the numbers of the statements. -/
theorem writeDest_eq_wrote (d : Word) (n : Nat) (v : Word) (s : State) :
    writeDest d n v s = withDest d s fun r => .next (wrote s r v n) := by
  simp only [writeDest, setReg_advance]

theorem execPop_nil {s : State} (h : s.stack = []) (d : Word) :
    execPop d s = withDest d s fun _ => .next (raise .empty s) := by
  simp only [execPop, State.pop?_nil h]

theorem execPop_concat {s : State} {l : List Word} {v : Word} (h : s.stack = l ++ [v]) (d : Word) :
    execPop d s = withDest d s fun r => .next { wrote s r v 2 with stack := l } := by
  simp only [execPop, State.pop?_concat h, setReg_advance]
  rfl

end Sys2Proof.Machine

/-! ## The statements -/

namespace Sys2Proof.Proofs

open Sys2Proof.Machine Sys2Proof.Claim

/-- Settles O38: `set` has the roles `dest, value`, and writes the value as it is. -/
theorem setStep : Obligations.SetStep :=
  fun s hat => hat.step_eq_stepDV decode_set fun d v => writeDest_eq_wrote d 3 (s.val v) s

/-- Settles O40: `pop` has the role `dest`, and behind the destination check the stack is empty or has a top entry. -/
theorem popStep : Obligations.PopStep := fun _ hat =>
  ⟨fun hs => hat.step_eq_stepD decode_pop (execPop_nil hs),
    fun _ _ hs => hat.step_eq_stepD decode_pop (execPop_concat hs)⟩

end Sys2Proof.Proofs

/-! # Comparisons (spec/42_compare.md)

The law of a step for the operand roles `value, value` and `dest, value, value`; then the two comparisons, which share
their end and differ in the condition alone. -/

/-! ## The rows of the table -/

namespace Sys2Proof

theorem decode_eq {op : Word} (h : op.toNat = 4) (ws : List Word) : decode (op :: ws) = rolesDVV .eq ws := by
  simp [decode, h]

theorem decode_gt {op : Word} (h : op.toNat = 5) (ws : List Word) : decode (op :: ws) = rolesDVV .gt ws := by
  simp [decode, h]

end Sys2Proof

namespace Sys2Proof.Machine

open Sys2Proof.Claim

/-! ## What a step does with the decoder's answer, two values -/

section

variable (s : State) (p n : Nat)

/-- The roles `value, value`: the two faults of the first word come before anything about the second (R53). -/
theorem afterDecode_rolesVV {mk : Src → Src → Instr} {own : Word → Word → Host.Outcome State Fault Refusal}
    (hexec : ∀ a b, exec (mk a b) s = own (s.val a) (s.val b)) :
    s.afterDecode (rolesVV mk (s.mem.readWords p (n + 2))) =
      if 32767 < p then .next (raise .memRange s)
      else if 32776 ≤ (s.mem.readWord p).toNat then .next (raise .badOperand s)
      else if 32767 < p + 1 then .next (raise .memRange s)
      else if 32776 ≤ (s.mem.readWord (p + 1)).toNat then .next (raise .badOperand s)
      else own (value s (s.mem.readWord p)) (value s (s.mem.readWord (p + 1))) := by
  by_cases hp : 32767 < p
  · rw [if_pos hp, Memory.readWords_out _ _ hp]
    rfl
  · rw [if_neg hp, Memory.readWords_in _ _ (by omega), rolesVV]
    cases hv : srcOf? (s.mem.readWord p) with
    | none =>
      rw [if_pos ((srcOf?_eq_none_iff _).1 hv), takeValue_cons_none hv]
      rfl
    | some a =>
      have hw : ¬ 32776 ≤ (s.mem.readWord p).toNat := fun hw => nomatch hv.symm.trans (srcOf?_invalid hw)
      rw [if_neg hw, takeValue_cons_some hv, ← val_of_srcOf? hv]
      exact afterDecode_rolesV s (p + 1) n (hexec a)

/-- The roles `dest, value, value`: the word of the destination, then the roles `value, value`. -/
theorem afterDecode_rolesDVV (mk : Word → Src → Src → Instr) :
    s.afterDecode (rolesDVV mk (s.mem.readWords p (n + 3))) =
      if 32767 < p then .next (raise .memRange s)
      else s.afterDecode (rolesVV (mk (s.mem.readWord p)) (s.mem.readWords (p + 1) (n + 2))) := by
  by_cases hp : 32767 < p
  · rw [if_pos hp, Memory.readWords_out _ _ hp]
    rfl
  · rw [if_neg hp, Memory.readWords_in _ _ (by omega)]
    rfl

end

end Sys2Proof.Machine

namespace Sys2Proof.Claim

open Sys2Proof.Machine

/-- The step of a row with the roles `dest, value, value`. -/
theorem At.step_eq_stepDVV {s : State} {op : Nat} (h : At s op) {mk : Word → Src → Src → Instr}
    {own : RegIx → Word → Word → Host.Outcome State Fault Refusal}
    (hdec : ∀ {w : Word}, w.toNat = op → ∀ ws, decode (w :: ws) = rolesDVV mk ws)
    (hexec : ∀ d a b, exec (mk d a b) s = withDest d s fun r => own r (s.val a) (s.val b)) :
    step s = stepDVV s own := by
  have hvalues := afterDecode_rolesVV (own := fun a b => withDest (word s 1) s fun r => own r a b) s (s.pc.toNat + 2) 0
    (hexec (word s 1))
  rw [withDest_eq] at hvalues
  rw [h.step_roles hdec, afterDecode_rolesDVV]
  exact congrArg (ite (32767 < s.pc.toNat + 1) (.next (raise .memRange s))) hvalues

end Sys2Proof.Claim

/-! ## The instructions' own part -/

namespace Sys2Proof.Machine

open Sys2Proof.Claim

/-- The common end of the comparisons: the destination becomes 1 or 0 as the condition decides. -/
theorem writeDest_truthWord (d : Word) (n : Nat) (c : Prop) [Decidable c] (s : State) :
    writeDest d n (truthWord (decide c)) s =
      withDest d s fun r => .next (wrote s r (if c then 1#16 else 0#16) n) := by
  simp only [writeDest_eq_wrote, truthWord, decide_eq_true_eq]

/-- Equality of the numbers, as `eq` compares them, is equality of the words (R63). -/
theorem execEq_eq_wrote (d : Word) (a b : Src) (s : State) :
    execEq d a b s = withDest d s fun r => .next (wrote s r (if s.val a = s.val b then 1#16 else 0#16) 4) := by
  simp only [execEq, writeDest_truthWord, BitVec.toNat_inj]

end Sys2Proof.Machine

/-! ## The statement -/

namespace Sys2Proof.Proofs

open Sys2Proof.Machine Sys2Proof.Claim

/-- Settles O41: `eq` and `gt` have the roles `dest, value, value`, and write 1 or 0 by their condition on the two
values. -/
theorem compareSteps : Obligations.CompareSteps := fun s =>
  ⟨fun hat => hat.step_eq_stepDVV decode_eq fun d a b => execEq_eq_wrote d a b s,
    fun hat => hat.step_eq_stepDVV decode_gt fun d a b => writeDest_truthWord d 4 _ s⟩

end Sys2Proof.Proofs

/-! # Jumps (spec/43_jumps.md)

The law of a step for the operand roles `value` and `value, value`; then the three jumps, which write the pc alone. -/

/-! ## The rows of the table -/

namespace Sys2Proof

theorem decode_jmp {op : Word} (h : op.toNat = 6) (ws : List Word) : decode (op :: ws) = rolesV .jmp ws := by
  simp [decode, h]

theorem decode_jt {op : Word} (h : op.toNat = 7) (ws : List Word) : decode (op :: ws) = rolesVV .jt ws := by
  simp [decode, h]

theorem decode_jf {op : Word} (h : op.toNat = 8) (ws : List Word) : decode (op :: ws) = rolesVV .jf ws := by
  simp [decode, h]

end Sys2Proof

/-! ## The step at an opcode word with value operands alone -/

namespace Sys2Proof.Claim

open Sys2Proof.Machine

section

variable {s : State} {op : Nat}

/-- The step of a row with the role `value`. -/
theorem At.step_eq_stepV (h : At s op) {mk : Src → Instr} {own : Word → Host.Outcome State Fault Refusal}
    (hdec : ∀ {w : Word}, w.toNat = op → ∀ ws, decode (w :: ws) = rolesV mk ws)
    (hexec : ∀ v, exec (mk v) s = own (s.val v)) : step s = stepV s own :=
  (h.step_roles hdec).trans (afterDecode_rolesV s (s.pc.toNat + 1) 2 hexec)

/-- The step of a row with the roles `value, value`. -/
theorem At.step_eq_stepVV (h : At s op) {mk : Src → Src → Instr}
    {own : Word → Word → Host.Outcome State Fault Refusal}
    (hdec : ∀ {w : Word}, w.toNat = op → ∀ ws, decode (w :: ws) = rolesVV mk ws)
    (hexec : ∀ a b, exec (mk a b) s = own (s.val a) (s.val b)) : step s = stepVV s own :=
  (h.step_roles hdec).trans (afterDecode_rolesVV s (s.pc.toNat + 1) 1 hexec)

end

end Sys2Proof.Claim

/-! ## The instructions' own part -/

namespace Sys2Proof.Machine

/-- Sequential advance writes the pc alone, with the word of the natural sum at any pc (R55). -/
theorem State.advance_eq (s : State) (n : Nat) :
    s.advance n = { s with pc := BitVec.ofNat 16 (s.pc.toNat + n) } := by
  simp [State.advance, State.setPc, BitVec.ofNat_add]

/-- `jt` jumps on a nonzero condition and advances on 0 (R66). -/
theorem exec_jt (a v : Src) (s : State) :
    exec (.jt a v) s = .next { s with
      pc := if (s.val a).toNat ≠ 0 then s.val v else BitVec.ofNat 16 (s.pc.toNat + 3) } := by
  by_cases ha : (s.val a).toNat = 0
  · rw [exec_of_effect (.jtNot ha), if_neg (not_not_intro ha), State.advance_eq]
  · rw [exec_of_effect (.jtTaken ha), if_pos ha, State.setPc]

/-- `jf` jumps on 0 and advances on a nonzero condition (R67). -/
theorem exec_jf (a v : Src) (s : State) :
    exec (.jf a v) s = .next { s with
      pc := if (s.val a).toNat = 0 then s.val v else BitVec.ofNat 16 (s.pc.toNat + 3) } := by
  by_cases ha : (s.val a).toNat = 0
  · rw [exec_of_effect (.jfTaken ha), if_pos ha, State.setPc]
  · rw [exec_of_effect (.jfNot ha), if_neg ha, State.advance_eq]

end Sys2Proof.Machine

/-! ## The statement -/

namespace Sys2Proof.Proofs

open Sys2Proof.Machine Sys2Proof.Claim

/-- Settles O42: `jmp` has the role `value`, `jt` and `jf` have the roles `value, value`, so the target is resolved
before the condition decides whether the pc takes it. -/
theorem jumpSteps : Obligations.JumpSteps := fun s =>
  ⟨fun hat => hat.step_eq_stepV decode_jmp fun _ => exec_of_effect .jmp,
    fun hat => hat.step_eq_stepVV decode_jt fun a v => exec_jt a v s,
    fun hat => hat.step_eq_stepVV decode_jf fun a v => exec_jf a v s⟩

end Sys2Proof.Proofs

/-! # Arithmetic and bitwise logic (spec/44_alu.md)

The result words as numbers; then the six steps, each the row's operand roles and one write behind the destination
check, and the laws of the results in the register they are written to. -/

/-! ## The rows of the table -/

namespace Sys2Proof

theorem decode_add {op : Word} (h : op.toNat = 9) (ws : List Word) : decode (op :: ws) = rolesDVV .add ws := by
  simp [decode, h]

theorem decode_mult {op : Word} (h : op.toNat = 10) (ws : List Word) : decode (op :: ws) = rolesDVV .mult ws := by
  simp [decode, h]

theorem decode_mod {op : Word} (h : op.toNat = 11) (ws : List Word) : decode (op :: ws) = rolesDVV .mod ws := by
  simp [decode, h]

theorem decode_and {op : Word} (h : op.toNat = 12) (ws : List Word) : decode (op :: ws) = rolesDVV .and ws := by
  simp [decode, h]

theorem decode_or {op : Word} (h : op.toNat = 13) (ws : List Word) : decode (op :: ws) = rolesDVV .or ws := by
  simp [decode, h]

theorem decode_not {op : Word} (h : op.toNat = 14) (ws : List Word) : decode (op :: ws) = rolesDV .not ws := by
  simp [decode, h]

end Sys2Proof

namespace Sys2Proof.Machine

open Sys2Proof.Claim

/-! ## The result words -/

/-- The reduced sum fits in a word, so no bit of it is lost (R69). -/
theorem addWord_toNat (a b : Word) : (addWord a b).toNat = (a.toNat + b.toNat) % 32768 := by
  rw [addWord, BitVec.toNat_ofNat]
  omega

/-- The reduced product fits in a word, so no bit of it is lost (R70). -/
theorem multWord_toNat (a b : Word) : (multWord a b).toNat = a.toNat * b.toNat % 32768 := by
  rw [multWord, BitVec.toNat_ofNat]
  omega

/-- Adding 32767 subtracts 1 modulo 32768 (R52). -/
theorem addWord_32767 (a : Word) : ((addWord a 32767#16).toNat + 1) % 32768 = a.toNat % 32768 := by
  have h : (addWord a 32767#16).toNat = (a.toNat + 32767) % 32768 := addWord_toNat a 32767#16
  omega

/-- Multiplying by 32767 negates modulo 32768 (R52). -/
theorem multWord_32767 (a : Word) : ((multWord a 32767#16).toNat + a.toNat) % 32768 = 0 := by
  have h : (multWord a 32767#16).toNat = a.toNat * 32767 % 32768 := multWord_toNat a 32767#16
  omega

@[simp] theorem notWord_notWord (a : Word) : notWord (notWord a) = a := by
  rw [notWord, notWord, BitVec.xor_assoc, BitVec.xor_self, BitVec.xor_zero]

/-! ## The instructions' own part -/

/-- Behind the destination check `mod` faults on a zero divisor and writes the remainder otherwise (R71). -/
theorem execMod_eq_wrote (d : Word) (a b : Src) (s : State) :
    execMod d a b s = withDest d s fun r =>
      if (s.val b).toNat = 0 then .next (raise .modZero s)
      else .next (wrote s r (modWord (s.val a) (s.val b)) 4) := by
  simp only [execMod, setReg_advance]

/-- An instruction without a check of its own completes for a register destination, with its word in that register. -/
theorem exec_plain_completes {i : Instr} {d : Word} {r : RegIx} {v : Word} {s : State} (hi : i.destWord? = some d)
    (hd : d.toNat = 32768 + r.val) (hv : plainResult? s i = some v) : ∃ t, exec i s = .next t ∧ t.reg r = v :=
  ⟨_, exec_of_effect (.plain hi (dest?_register hd) hv), by simp⟩

end Sys2Proof.Machine

/-! ## The statements -/

namespace Sys2Proof.Proofs

open Sys2Proof.Machine Sys2Proof.Claim

/-- Settles O43: `add` and `mult` have the roles `dest, value, value`, and write their reduced result. -/
theorem addMultSteps : Obligations.AddMultSteps := fun s =>
  ⟨fun hat => hat.step_eq_stepDVV decode_add fun d a b => writeDest_eq_wrote d 4 (addWord (s.val a) (s.val b)) s,
    fun hat => hat.step_eq_stepDVV decode_mult fun d a b => writeDest_eq_wrote d 4 (multWord (s.val a) (s.val b)) s⟩

/-- Settles O44: `mod` has the roles `dest, value, value`, and checks the divisor behind the destination check. -/
theorem modStep : Obligations.ModStep := fun s hat =>
  hat.step_eq_stepDVV decode_mod fun d a b => execMod_eq_wrote d a b s

/-- Settles O45: `and` and `or` have the roles `dest, value, value`, and write the whole 16-bit result. -/
theorem andOrSteps : Obligations.AndOrSteps := fun s =>
  ⟨fun hat => hat.step_eq_stepDVV decode_and fun d a b => writeDest_eq_wrote d 4 (andWord (s.val a) (s.val b)) s,
    fun hat => hat.step_eq_stepDVV decode_or fun d a b => writeDest_eq_wrote d 4 (orWord (s.val a) (s.val b)) s⟩

/-- Settles O46: `not` has the roles `dest, value`, and writes the value with its low 15 bits complemented. -/
theorem notStep : Obligations.NotStep := fun s hat =>
  hat.step_eq_stepDV decode_not fun d a => writeDest_eq_wrote d 3 (notWord (s.val a)) s

/-- Settles O60: each instruction leaves its result word in the destination, and the laws are those of the result words;
the second `not` reads what the first one wrote. -/
theorem arithmeticLaws : Obligations.ArithmeticLaws := by
  intro s d r a b hd
  obtain ⟨tAdd, hAdd, rAdd⟩ := exec_plain_completes (i := .add d a b) (s := s) rfl hd rfl
  obtain ⟨tMult, hMult, rMult⟩ := exec_plain_completes (i := .mult d a b) (s := s) rfl hd rfl
  obtain ⟨tPred, hPred, rPred⟩ := exec_plain_completes (i := .add d a (.lit 32767#16)) (s := s) rfl hd rfl
  obtain ⟨tNeg, hNeg, rNeg⟩ := exec_plain_completes (i := .mult d a (.lit 32767#16)) (s := s) rfl hd rfl
  obtain ⟨t, hNot, rNot⟩ := exec_plain_completes (i := .not d a) (s := s) rfl hd rfl
  obtain ⟨u, hNot', rNot'⟩ := exec_plain_completes (i := .not d (.reg r)) (s := t) rfl hd rfl
  refine ⟨⟨tAdd, hAdd, ?_⟩, ⟨tMult, hMult, ?_⟩, ⟨tPred, hPred, ?_⟩, ⟨tNeg, hNeg, ?_⟩, ⟨t, u, hNot, hNot', ?_⟩⟩
  · rw [rAdd, addWord_toNat]
    exact Nat.mod_lt _ (by decide)
  · rw [rMult, multWord_toNat]
    exact Nat.mod_lt _ (by decide)
  · rw [rPred]
    exact addWord_32767 (s.val a)
  · rw [rNeg]
    exact multWord_32767 (s.val a)
  · rw [rNot', State.val, rNot, notWord_notWord]

end Sys2Proof.Proofs

/-! # Memory access (spec/45_memory_access.md)

The two instructions that use a value as an address: `rmem` checks it behind the destination check, and `wmem` is a
function of its two values. -/

/-! ## The rows of the table -/

namespace Sys2Proof

theorem decode_rmem {op : Word} (h : op.toNat = 15) (ws : List Word) : decode (op :: ws) = rolesDV .rmem ws := by
  simp [decode, h]

theorem decode_wmem {op : Word} (h : op.toNat = 16) (ws : List Word) : decode (op :: ws) = rolesVV .wmem ws := by
  simp [decode, h]

end Sys2Proof

namespace Sys2Proof.Machine

open Sys2Proof.Claim

/-! ## The cells of a stored word -/

/-- The frame of a store, by the word that a cell belongs to: cell `k` is one of the two of word `k / 2` (R29). -/
theorem Memory.readByte_writeWord_outside (m : Memory) {a k : Nat} (v : Word) (h : k / 2 ≠ a) :
    (m.writeWord a v).readByte k = m.readByte k :=
  Memory.readByte_writeWord_other m v (by omega) (by omega)

/-! ## The instructions' own part -/

/-- Behind the destination check `rmem` faults on an address beyond the memory and writes the word there otherwise
(R75). -/
theorem execRmem_eq_wrote (d : Word) (a : Src) (s : State) :
    execRmem d a s = withDest d s fun r =>
      if 32767 < (s.val a).toNat then .next (raise .memRange s)
      else .next (wrote s r (s.mem.readWord (s.val a).toNat) 3) := by
  by_cases ha : 32767 < (s.val a).toNat
  · simp only [execRmem, State.memRead?_out ha, if_pos ha]
  · simp only [execRmem, State.memRead?_in (Nat.lt_succ_of_le (Nat.le_of_not_lt ha)), if_neg ha, setReg_advance]

/-- `wmem` sees its operands by their effective values alone: the same words as literals have the same meaning, also
those above 32767, which only a register can hold (R76). -/
theorem exec_wmem_eq_lit (a b : Src) (s : State) :
    exec (.wmem a b) s = exec (.wmem (.lit (s.val a)) (.lit (s.val b))) s := rfl

end Sys2Proof.Machine

/-! ## The statements -/

namespace Sys2Proof.Proofs

open Sys2Proof.Machine Sys2Proof.Claim

/-- Settles O47: `rmem` has the roles `dest, value`, and checks the address behind the destination check. -/
theorem rmemStep : Obligations.RmemStep := fun s hat =>
  hat.step_eq_stepDV decode_rmem fun d a => execRmem_eq_wrote d a s

/-- Settles O48: `wmem` has the roles `value, value`; on two values it faults, or its effect is one `writeWord` and the
advance. -/
theorem wmemStep : Obligations.WmemStep := by
  refine fun s hat => ⟨fun a b => exec (.wmem (.lit a) (.lit b)) s,
    hat.step_eq_stepVV decode_wmem fun a b => exec_wmem_eq_lit a b s,
    fun a b => ⟨fun ha => exec_of_raises (.wmemRange ha), fun ha => ?_⟩⟩
  have hrange : a.toNat < 32768 := Nat.lt_succ_of_le ha
  exact ⟨_, exec_of_effect (.wmem hrange), fun hwf => Memory.readWord_writeWord_same b hwf hrange,
    fun _ hq => Memory.readWord_writeWord_other _ b hq,
    fun _ hk => Memory.readByte_writeWord_outside _ b hk, State.advance_eq _ 3⟩

end Sys2Proof.Proofs

/-! # Subroutines (spec/46_call_ret.md)

`ret` takes any word for the new pc; one beyond the memory is caught by the fetch of the next step. -/

namespace Sys2Proof.Proofs

open Sys2Proof.Machine Sys2Proof.Claim

/-- Settles O50: the opcode word is the whole `ret`; on an empty stack it faults, and on a top entry it has its one
effect, which leaves the core `Running` for the next fetch. -/
theorem retStep : Obligations.RetStep := by
  intro s hat
  have hstep : step s = exec .ret s := hat.step_opcode decode_ret
  refine ⟨fun hempty => ?_, fun l v htop => ⟨?_, fun hbeyond => ?_⟩⟩
  · exact ⟨hstep.trans (exec_of_raises (.retEmpty hempty)), raise_runState _ _⟩
  · exact hstep.trans (exec_of_effect (.ret htop))
  · exact step_decode_error (e := .outOfWords) hat.1 (State.decodeAt_out hbeyond)

end Sys2Proof.Proofs

/-! # Console input and output (spec/47_io.md)

What `out` and `in` do behind their operand checks; then the refill of a stalled core, which leaves the same `in` to
run. -/

/-! ## The rows of the table -/

namespace Sys2Proof

theorem decode_out {op : Word} (h : op.toNat = 19) (ws : List Word) : decode (op :: ws) = rolesV .out ws := by
  simp [decode, h]

theorem decode_inp {op : Word} (h : op.toNat = 20) (ws : List Word) : decode (op :: ws) = rolesD .inp ws := by
  simp [decode, h]

end Sys2Proof

/-! ## The instructions' own part -/

namespace Sys2Proof.Machine

open Sys2Proof.Claim

/-- The byte `out` emits is the value modulo 256 (R80). -/
theorem setWidth_8_eq (v : Word) : v.setWidth 8 = BitVec.ofNat 8 (v.toNat % 256) :=
  BitVec.eq_of_toNat_eq (by simp)

/-- `out` in the numbers of the statements: it has no condition (R80). -/
theorem exec_out (a : Src) (s : State) :
    exec (.out a) s = .next { s with
      outlog := s.outlog ++ [BitVec.ofNat 8 ((s.val a).toNat % 256)], pc := BitVec.ofNat 16 (s.pc.toNat + 2) } := by
  rw [exec_of_effect .out, State.advance_eq, setWidth_8_eq]
  rfl

theorem State.inByte?_nil {s : State} (h : s.inbuf = []) : s.inByte? = none := by
  simp [State.inByte?, h]

theorem State.inByte?_cons {s : State} {b : Byte} {bs : List Byte} (h : s.inbuf = b :: bs) :
    s.inByte? = some (b, { s with inbuf := bs }) := by
  simp [State.inByte?, h]

/-- Behind the destination check, `in` has no step while the buffer is empty (R82). -/
theorem execInp_nil {s : State} (h : s.inbuf = []) (d : Word) :
    execInp d s = withDest d s fun _ => .fault .stalledOnInput := by
  simp only [execInp, State.inByte?_nil h]

/-- Behind the destination check, `in` delivers the head of the buffer, zero-extended (R81). -/
theorem execInp_cons {s : State} {b : Byte} {bs : List Byte} (h : s.inbuf = b :: bs) (d : Word) :
    execInp d s = withDest d s fun r => .next { wrote s r (BitVec.ofNat 16 b.toNat) 2 with inbuf := bs } := by
  simp only [execInp, State.inByte?_cons h, setReg_advance, BitVec.ofNat_toNat]
  rfl

/-! ## The refill -/

/-- Everything a stall says: the core is `Running`, at an `in` that names a register, and the buffer is empty (R82). -/
theorem stalledOnInput_cases {s : State} (h : step s = .fault .stalledOnInput) :
    s.runState = .running ∧ s.inbuf = [] ∧ ∃ d r, s.DecodesTo (.inp d) ∧ dest? d = some r := by
  obtain ⟨-, -, hstalled, -⟩ := Proofs.stopsAreExactlyThree s
  obtain ⟨hr, ⟨d, hi, hd⟩, hin⟩ := hstalled.1 h
  obtain ⟨r, hd⟩ := (isReg_iff d).1 hd
  exact ⟨hr, hin, d, r, hi, hd⟩

theorem refill_of_stalled {s : State} {line : List Byte} (h : step s = .fault .stalledOnInput) (hl : line ≠ []) :
    s.refill line = some { s with inbuf := s.inbuf ++ line } :=
  if_pos ⟨(stalled_iff s).2 h, hl⟩

/-- The host can refill exactly a stalled core, with a line that is not empty (R82, R110). -/
theorem exists_refill_iff (s : State) (line : List Byte) :
    (∃ t, s.refill line = some t) ↔ step s = .fault .stalledOnInput ∧ line ≠ [] := by
  constructor
  · rintro ⟨t, h⟩
    obtain ⟨hstep, hl, -⟩ := refill_cases h
    exact ⟨hstep, hl⟩
  · rintro ⟨hstep, hl⟩
    exact ⟨_, refill_of_stalled hstep hl⟩

end Sys2Proof.Machine

/-! ## The statements -/

namespace Sys2Proof.Proofs

open Sys2Proof.Machine Sys2Proof.Claim

/-- Settles O51: `out` has the role `value`, and emits one byte whatever the value. -/
theorem outStep : Obligations.OutStep := fun s hat =>
  hat.step_eq_stepV decode_out fun a => exec_out a s

/-- Settles O52: `in` has the role `dest`, and behind the destination check the buffer is empty or has a head. -/
theorem inStep : Obligations.InStep := fun _ hat =>
  ⟨fun hin => ⟨_, hat.step_eq_stepD decode_inp (execInp_nil hin)⟩,
    fun _ _ hin => hat.step_eq_stepD decode_inp (execInp_cons hin)⟩

/-- Settles O27: a stalled core is at an `in` with a register destination and an empty buffer; the refill makes the line
its buffer and leaves the `in` at the pc, whose effect on a buffer with a head is the step. -/
theorem refillResumesTheStalledIn : Obligations.RefillResumesTheStalledIn := by
  intro s line
  refine ⟨exists_refill_iff s line, ?_⟩
  rintro b bs rfl hstep
  obtain ⟨hr, hin, d, r, hi, hd⟩ := stalledOnInput_cases hstep
  have hnext : step { s with inbuf := b :: bs } = _ := step_of_effect hr hi (.inp hd rfl)
  refine ⟨?_, d, r, _, hi, (dest?_eq_some_iff d r).1 hd, hnext, ?_, ?_, rfl, rfl, rfl, rfl, hr, rfl, rfl⟩
  · rw [refill_of_stalled hstep (List.cons_ne_nil b bs), hin, List.nil_append]
  · rw [State.reg_advance, State.reg_setReg_same, BitVec.toNat_setWidth_of_le (by decide)]
  · exact fun j hj => State.reg_setReg_other _ _ hj

end Sys2Proof.Proofs

/-! # Faults of the core (spec/60_exceptions.md)

Once, which state raises which cause: a decode error of the state, or one of the execute phase's faults, each with its
condition. Each cause is then raised exactly where one of its conditions holds. -/

/-! ## The first operand that faults -/

namespace Sys2Proof.Claim

open Sys2Proof.Machine

section

variable {s : State} {op : Nat}

/-- One more operand passes. -/
theorem PassedBefore.succ {k : Nat} (h : PassedBefore s op k) (hpc : s.pc.toNat + k ≤ 32767)
    (hval : (roles op)[k - 1]? = some true → ¬ IsInvalid (word s k)) : PassedBefore s op (k + 1) := by
  intro j h1 hj
  obtain hlt | rfl := Nat.lt_succ_iff_lt_or_eq.1 hj
  · exact h j h1 hlt
  · exact ⟨hpc, hval⟩

/-- Of the first `k` operands every one passes, or one is the first to fault, by its range or by its value (R53). -/
theorem passed_or_first_fault (s : State) (op : Nat) {k : Nat} (hk : k ≤ (roles op).length) :
    PassedBefore s op (k + 1) ∨ (∃ j, FirstBeyond s op j) ∨ ∃ j, FirstInvalid s op j := by
  induction k with
  | zero => exact .inl fun j h1 hj => by omega
  | succ k ih =>
    obtain hpass | hfault := ih (Nat.le_of_succ_le hk)
    · by_cases hpc : s.pc.toNat + (k + 1) ≤ 32767
      · by_cases hinv : (roles op)[k]? = some true ∧ IsInvalid (word s (k + 1))
        · exact .inr (.inr ⟨k + 1, Nat.succ_pos k, hk, hpass, hpc, hinv.1, hinv.2⟩)
        · exact .inl (hpass.succ hpc fun hrole hw => hinv ⟨hrole, hw⟩)
      · exact .inr (.inl ⟨k + 1, Nat.succ_pos k, hk, hpass, Nat.lt_of_not_le hpc⟩)
    · exact .inr hfault

/-- What the loop over the operands answers, and why. -/
theorem operandError?_cases (s : State) (op : Nat) :
    operandError? s.mem (s.pc.toNat + 1) (roles op) = none ∨
    (operandError? s.mem (s.pc.toNat + 1) (roles op) = some .outOfWords ∧ ∃ k, FirstBeyond s op k) ∨
    (operandError? s.mem (s.pc.toNat + 1) (roles op) = some .badOperand ∧ ∃ k, FirstInvalid s op k) := by
  obtain hpass | ⟨k, hk⟩ | ⟨k, hk⟩ := passed_or_first_fault s op le_rfl
  · exact .inl (operandError?_allPassed hpass)
  · exact .inr (.inl ⟨hk.operandError?_eq, k, hk⟩)
  · exact .inr (.inr ⟨hk.operandError?_eq, k, hk⟩)

end

end Sys2Proof.Claim

/-! ## The errors of the decode phase -/

namespace Sys2Proof.Machine

open Sys2Proof.Claim

section

variable {s : State} (hr : s.runState = .running)

include hr

/-- Every error of the decode phase of a `Running` core, with its reason (R53). -/
theorem decodeAt_error_cases {e : DecodeError} (h : s.decodeAt = .error e) :
    (e = .outOfWords ∧ (32767 < s.pc.toNat ∨ ∃ op k, At s op ∧ op ≤ 21 ∧ FirstBeyond s op k)) ∨
    (e = .badOpcode ∧ ∃ op, At s op ∧ 22 ≤ op) ∨
    (e = .badOperand ∧ ∃ op k, At s op ∧ op ≤ 21 ∧ FirstInvalid s op k) := by
  by_cases hpc : 32767 < s.pc.toNat
  · cases h.symm.trans (State.decodeAt_out hpc)
    exact .inl ⟨rfl, .inl hpc⟩
  · have hat : At s (s.mem.readWord s.pc.toNat).toNat := ⟨hr, Nat.le_of_not_lt hpc, rfl⟩
    by_cases hop : 22 ≤ (s.mem.readWord s.pc.toNat).toNat
    · obtain ⟨w, ws, hw, hdec⟩ := hat.decodeAt
      cases h.symm.trans (hdec.trans (decode_illegal (by omega) ws))
      exact .inr (.inl ⟨rfl, _, hat, hop⟩)
    · have hop : (s.mem.readWord s.pc.toNat).toNat ≤ 21 := by omega
      have hloop := (hat.decodeAt_error_iff hop e).1 h
      obtain hnone | ⟨hsome, k, hk⟩ | ⟨hsome, k, hk⟩ := operandError?_cases s (s.mem.readWord s.pc.toNat).toNat
      · cases hnone.symm.trans hloop
      · cases hsome.symm.trans hloop
        exact .inl ⟨rfl, .inr ⟨_, k, hat, hop, hk⟩⟩
      · cases hsome.symm.trans hloop
        exact .inr (.inr ⟨rfl, _, k, hat, hop, hk⟩)

/-- The words end before the instruction does: at the opcode word or at an operand word (R49). -/
theorem decodeAt_outOfWords_iff : s.decodeAt = .error .outOfWords ↔
    32767 < s.pc.toNat ∨ ∃ op k, At s op ∧ op ≤ 21 ∧ FirstBeyond s op k := by
  constructor
  · intro h
    obtain ⟨-, hcase⟩ | ⟨he, -⟩ | ⟨he, -⟩ := decodeAt_error_cases hr h
    · exact hcase
    · cases he
    · cases he
  · rintro (hpc | ⟨op, k, hat, hop, hk⟩)
    · exact State.decodeAt_out hpc
    · exact (hat.decodeAt_error_iff hop _).2 hk.operandError?_eq

theorem decodeAt_badOperand_iff : s.decodeAt = .error .badOperand ↔
    ∃ op k, At s op ∧ op ≤ 21 ∧ FirstInvalid s op k := by
  constructor
  · intro h
    obtain ⟨he, -⟩ | ⟨he, -⟩ | ⟨-, hcase⟩ := decodeAt_error_cases hr h
    · cases he
    · cases he
    · exact hcase
  · rintro ⟨op, k, hat, hop, hk⟩
    exact (hat.decodeAt_error_iff hop _).2 hk.operandError?_eq

/-! ## Which step raises which cause -/

/-- A step raises a cause exactly when the decode phase fails with it or the instruction at the pc raises it. -/
theorem step_raises_iff (c : Cause) : step s = .next (raise c s) ↔
    (∃ e, s.decodeAt = .error e ∧ causeOfDecodeError e = c) ∨ ∃ i, s.DecodesTo i ∧ Raises i s c := by
  constructor
  · intro h
    obtain ⟨-, ⟨e, he, hraise⟩ | ⟨i, rest, hi, ⟨c', hc, hraise⟩ | heff⟩⟩ := step_next_cases h
    · exact .inl ⟨e, he, (raise_injective hraise).symm⟩
    · exact .inr ⟨i, ⟨rest, hi⟩, raise_injective hraise ▸ hc⟩
    · exact absurd rfl (heff.not_faulted hr)
  · rintro (⟨e, he, rfl⟩ | ⟨i, hi, hc⟩)
    · exact step_decode_error hr he
    · exact (hi.step hr).trans (exec_of_raises hc)

/-- A cause that is none of the decode phase's is raised by the instruction at the pc alone. -/
theorem step_raises_iff_of_execute {c : Cause}
    (hc : c = .destNotRegister ∨ c = .empty ∨ c = .modZero ∨ c = .overflow) :
    step s = .next (raise c s) ↔ ∃ i, s.DecodesTo i ∧ Raises i s c := by
  rw [step_raises_iff hr, or_iff_right]
  rintro ⟨e, -, rfl⟩
  cases e <;> simp [causeOfDecodeError] at hc

end

theorem causeOfDecodeError_eq_memRange_iff (e : DecodeError) : causeOfDecodeError e = .memRange ↔ e = .outOfWords := by
  cases e <;> simp [causeOfDecodeError]

theorem causeOfDecodeError_eq_badOperand_iff (e : DecodeError) :
    causeOfDecodeError e = .badOperand ↔ e = .badOperand := by
  cases e <;> simp [causeOfDecodeError]

/-! ## The conditions of each cause -/

section

variable (i : Instr) (s : State)

theorem raises_memRange_iff : Raises i s .memRange ↔
    (∃ d a, i = .rmem d a ∧ IsReg d ∧ 32767 < (s.val a).toNat) ∨ ∃ a b, i = .wmem a b ∧ 32767 < (s.val a).toNat := by
  constructor
  · rintro (_ | _ | _ | _ | ⟨hd, ha⟩ | ha)
    · exact .inl ⟨_, _, rfl, (isReg_iff _).2 ⟨_, hd⟩, ha⟩
    · exact .inr ⟨_, _, rfl, ha⟩
  · rintro (⟨d, a, rfl, hd, ha⟩ | ⟨a, b, rfl, ha⟩)
    · obtain ⟨r, hd⟩ := (isReg_iff d).1 hd
      exact .rmemRange hd ha
    · exact .wmemRange ha

theorem raises_destNotRegister_iff : Raises i s .destNotRegister ↔
    ∃ d, i.destWord? = some d ∧ (d.toNat ≤ 32767 ∨ 32776 ≤ d.toNat) := by
  have hrange (d : Word) : dest? d = none ↔ d.toNat ≤ 32767 ∨ 32776 ≤ d.toNat := by
    rw [dest?_eq_none_iff, Nat.lt_succ_iff]
  constructor
  · rintro ⟨hi, hd⟩
    exact ⟨_, hi, (hrange _).1 hd⟩
  · rintro ⟨d, hi, hd⟩
    exact .dest hi ((hrange d).2 hd)

theorem raises_empty_iff : Raises i s .empty ↔ s.stack = [] ∧ ((∃ d, i = .pop d ∧ IsReg d) ∨ i = .ret) := by
  constructor
  · rintro (_ | ⟨hd, hs⟩ | hs)
    · exact ⟨hs, .inl ⟨_, rfl, (isReg_iff _).2 ⟨_, hd⟩⟩⟩
    · exact ⟨hs, .inr rfl⟩
  · rintro ⟨hs, ⟨d, rfl, hd⟩ | rfl⟩
    · obtain ⟨r, hd⟩ := (isReg_iff d).1 hd
      exact .popEmpty hd hs
    · exact .retEmpty hs

theorem raises_modZero_iff : Raises i s .modZero ↔ ∃ d a b, i = .mod d a b ∧ IsReg d ∧ (s.val b).toNat = 0 := by
  constructor
  · rintro (_ | _ | _ | ⟨hd, hb⟩)
    exact ⟨_, _, _, rfl, (isReg_iff _).2 ⟨_, hd⟩, hb⟩
  · rintro ⟨d, a, b, rfl, hd, hb⟩
    obtain ⟨r, hd⟩ := (isReg_iff d).1 hd
    exact .modZero hd hb

theorem not_raises_badOperand : ¬ Raises i s .badOperand := nofun

theorem not_raises_overflow : ¬ Raises i s .overflow := nofun

end

/-! ## The opcode word of the record -/

theorem State.memRead?_eq_none_iff (s : State) (a : Word) : s.memRead? a = none ↔ 32767 < a.toNat := by
  refine ⟨fun h => ?_, State.memRead?_out⟩
  by_contra ha
  cases h.symm.trans (State.memRead?_in (Nat.lt_succ_of_le (Nat.le_of_not_lt ha)))

/-! ## A push under a capacity -/

section

variable {s : State} {n : Nat}

theorem State.push?_full (h : n ≤ s.stack.length) (v : Word) : s.push? (some n) v = none :=
  if_neg (Nat.not_lt.2 h)

theorem State.push?_room (h : s.stack.length < n) (v : Word) : s.push? (some n) v = s.push? none v :=
  if_pos h

end

end Sys2Proof.Machine

/-! ## The statements -/

namespace Sys2Proof.Proofs

open Sys2Proof.Machine Sys2Proof.Claim

/-- Settles O11: the decode phase runs out of words, or `rmem` or `wmem` raises the cause; the record reads the opcode
word as memory is read at the pc. -/
theorem memRangeRaisedExactly : Obligations.MemRangeRaisedExactly := by
  refine fun s hr => ⟨?_, ?_⟩
  · rw [step_raises_iff hr]
    constructor
    · rintro (⟨e, he, hcause⟩ | ⟨i, hi, hraise⟩)
      · rw [(causeOfDecodeError_eq_memRange_iff e).1 hcause, decodeAt_outOfWords_iff hr] at he
        exact he.imp_right .inl
      · obtain ⟨d, a, rfl, hd, ha⟩ | ⟨a, b, rfl, ha⟩ := (raises_memRange_iff i s).1 hraise
        · exact .inr (.inr (.inl ⟨d, a, hi, hd, ha⟩))
        · exact .inr (.inr (.inr ⟨a, b, hi, ha⟩))
    · rintro (hpc | hbeyond | ⟨d, a, hi, hd, ha⟩ | ⟨a, b, hi, ha⟩)
      · exact .inl ⟨_, (decodeAt_outOfWords_iff hr).2 (.inl hpc), rfl⟩
      · exact .inl ⟨_, (decodeAt_outOfWords_iff hr).2 (.inr hbeyond), rfl⟩
      · exact .inr ⟨_, hi, (raises_memRange_iff _ s).2 (.inl ⟨d, a, rfl, hd, ha⟩)⟩
      · exact .inr ⟨_, hi, (raises_memRange_iff _ s).2 (.inr ⟨a, b, rfl, ha⟩)⟩
  · rintro r hfault
    cases hfault
    exact ⟨rfl, s.memRead?_eq_none_iff s.pc, fun hpc => State.memRead?_in (Nat.lt_succ_of_le hpc)⟩

/-- Settles O12: `badOperand` is a decode error alone, and the decode phase does not read the registers. -/
theorem badOperandRaisedExactly : Obligations.BadOperandRaisedExactly := by
  intro s hr
  have hdecode : step s = .next (raise .badOperand s) ↔ s.decodeAt = .error .badOperand := by
    simp only [step_raises_iff hr, causeOfDecodeError_eq_badOperand_iff, exists_eq_right, not_raises_badOperand,
      and_false, exists_false, or_false]
  exact ⟨hdecode.trans (decodeAt_badOperand_iff hr),
    fun h x => step_decode_error (s := { s with x := x }) hr (hdecode.1 h)⟩

/-- Settles O13: the destination check is the first line of the execute phase of every instruction that has a
destination. -/
theorem destNotRegisterRaisedExactly : Obligations.DestNotRegisterRaisedExactly := by
  constructor
  · intro s hr
    rw [step_raises_iff_of_execute hr (by decide)]
    simp only [raises_destNotRegister_iff, exists_and_left]
  · intro s d a b hd i hi
    have hdest : i.destWord? = some d := by
      revert i
      simp [Instr.destWord?]
    exact exec_of_raises ((raises_destNotRegister_iff i s).2 ⟨d, hdest, hd⟩)

/-- Settles O14: no decode error is `empty`, and of the instructions `pop` and `ret` raise it. -/
theorem stackEmptyRaisedExactly : Obligations.StackEmptyRaisedExactly := by
  refine fun s hr => ⟨?_, raise_stack _ _, reg_raise _ _, raise_runState _ _⟩
  rw [step_raises_iff_of_execute hr (by decide)]
  constructor
  · rintro ⟨i, hi, hraise⟩
    obtain ⟨hs, ⟨d, rfl, hd⟩ | rfl⟩ := (raises_empty_iff i s).1 hraise
    · exact ⟨hs, .inl ⟨d, hi, hd⟩⟩
    · exact ⟨hs, .inr hi⟩
  · rintro ⟨hs, ⟨d, hi, hd⟩ | hi⟩
    · exact ⟨_, hi, (raises_empty_iff _ s).2 ⟨hs, .inl ⟨d, rfl, hd⟩⟩⟩
    · exact ⟨_, hi, (raises_empty_iff _ s).2 ⟨hs, .inr rfl⟩⟩

/-- Settles O15: no decode error is `modZero`, and of the instructions `mod` alone raises it. -/
theorem modZeroRaisedExactly : Obligations.ModZeroRaisedExactly := by
  refine fun s hr => ⟨?_, reg_raise _ _, raise_runState _ _⟩
  rw [step_raises_iff_of_execute hr (by decide)]
  constructor
  · rintro ⟨i, hi, hraise⟩
    obtain ⟨d, a, b, rfl, hd, hb⟩ := (raises_modZero_iff i s).1 hraise
    exact ⟨d, a, b, hi, hd, hb⟩
  · rintro ⟨d, a, b, hi, hd, hb⟩
    exact ⟨_, hi, (raises_modZero_iff _ s).2 ⟨d, a, b, rfl, hd, hb⟩⟩

/-- Settles O9: the kind is the one the table files the cause under. -/
theorem raiseRecordsTheFault : Obligations.RaiseRecordsTheFault := by
  refine fun c s => ⟨c.kind, ?_, ?_, ?_, ?_, raise_eq_recordOf c s⟩
  · rintro (rfl | rfl) <;> rfl
  · rintro (rfl | rfl) <;> rfl
  · rintro (rfl | rfl) <;> rfl
  · rintro rfl
    rfl

/-- Settles O16: a push under a capacity is refused on a full stack, and is the unbounded one on any other; `overflow` is
neither a decode error nor raised by an instruction. -/
theorem overflowOnlyUnderFiniteCapacity : Obligations.OverflowOnlyUnderFiniteCapacity := by
  refine ⟨fun n v s => ⟨fun hfull => ⟨?_, ?_⟩, fun hroom => ⟨?_, ?_⟩⟩, fun s h => ?_⟩
  · rw [execPushUnder, State.push?_full hfull]
  · rw [execCallUnder, State.push?_full hfull]
  · rw [execPushUnder, State.push?_room hroom, State.push?_unbounded, exec_of_effect .push]
  · rw [execCallUnder, State.push?_room hroom, State.push?_unbounded, exec_of_effect .call]
  · obtain ⟨i, -, hraise⟩ := (step_raises_iff_of_execute (step_running h) (by decide)).1 h
    exact not_raises_overflow i s hraise

end Sys2Proof.Proofs

/-! # Runs of the core with its host (spec/70_reset_and_hazards.md)

Where a run has no further move it stays; so a run is safe unless it ends in a `Faulted` core, and its end is one of three
by the run state it has there. -/

namespace Sys2Proof.Machine

/-! ## The end of a run -/

/-- A run that has come to a state without a move has come to its end. -/
theorem runHost_of_le {lines : List (List Byte)} {s : State} {n m : Nat} (hnm : n ≤ m)
    (h : (s.runHost n lines).2.move (s.runHost n lines).1 = none) : s.runHost m lines = s.runHost n lines := by
  obtain ⟨k, rfl⟩ := Nat.exists_eq_add_of_le hnm
  rw [runHost_add, runHost_stop k h]

/-- One more move of a run that has one. -/
theorem runHost_succ {lines : List (List Byte)} {s : State} {n : Nat} {p : List (List Byte) × State}
    (h : (s.runHost n lines).2.move (s.runHost n lines).1 = some p) : s.runHost (n + 1) lines = p := by
  rw [runHost_add, runHost_move 0 h, runHost_zero]

/-- A run whose states all have a move meets no fault of the core, since a `Faulted` core has none. -/
theorem safeFor_of_moves {lines : List (List Byte)} {s : State} {n : Nat}
    (h : ∀ k, k ≤ n → (s.runHost k lines).2.move (s.runHost k lines).1 ≠ none) : s.SafeFor lines n :=
  fun k hk hf => h k hk (move_of_faulted _ hf)

/-- A run that ends in a core that is not `Faulted` is safe at every length: a fault before the end would have been the
end. -/
theorem safeFor_of_end {lines : List (List Byte)} {s : State} {n : Nat}
    (hend : (s.runHost n lines).2.move (s.runHost n lines).1 = none)
    (hnf : (s.runHost n lines).2.runState ≠ .faulted) (m : Nat) : s.SafeFor lines m := by
  intro k _ hf
  obtain hkn | hnk := le_total k n
  · rw [runHost_of_le hkn (move_of_faulted _ hf)] at hnf
    exact hnf hf
  · rw [runHost_of_le hnk hend] at hf
    exact hnf hf

/-! ## The fate of a state -/

/-- A state with a move is `Running`, and its run goes on. -/
theorem fate_of_move {s : State} {lines : List (List Byte)} {p : List (List Byte) × State}
    (h : s.move lines = some p) : s.fate lines = .running := by
  unfold State.fate
  cases hr : s.runState with
  | halted => cases (move_of_halted lines hr).symm.trans h
  | faulted => cases (move_of_faulted lines hr).symm.trans h
  | running => simp [h]

theorem fate_of_halted {s : State} (lines : List (List Byte)) (h : s.runState = .halted) : s.fate lines = .halted := by
  simp [State.fate, h]

theorem fate_of_faulted {s : State} (lines : List (List Byte)) (h : s.runState = .faulted) :
    s.fate lines = .faulted := by
  simp [State.fate, h]

theorem fate_of_stalled {s : State} {lines : List (List Byte)} (hr : s.runState = .running)
    (h : s.move lines = none) : s.fate lines = .stalled := by
  simp [State.fate, hr, h]

theorem runState_cases (s : State) : s.runState = .halted ∨ s.runState = .faulted ∨ s.runState = .running := by
  cases s.runState <;> simp

/-- A state without a move has no step. -/
theorem no_step_of_no_move {s : State} {lines : List (List Byte)} (h : s.move lines = none) (t : State) :
    step s ≠ .next t := fun hs => by cases h.symm.trans (move_of_next lines hs)

/-- A `Running` core without a step is stalled (R56, R82). -/
theorem stalledOnInput_of_no_step {s : State} (hr : s.runState = .running) (h : ∀ t, step s ≠ .next t) :
    step s = .fault .stalledOnInput := by
  cases hs : step s with
  | next t => exact absurd hs (h t)
  | refused r => exact absurd hs (step_not_refused s r)
  | fault f =>
    obtain ⟨hr', -⟩ | ⟨hr', -⟩ | ⟨-, rfl, -⟩ := step_fault_cases hs
    · cases hr.symm.trans hr'
    · cases hr.symm.trans hr'
    · rfl

/-- What keeps a stalled core without a move: the host's next line, where there is one, is empty. -/
theorem next_line_empty {s : State} {line : List Byte} {rest : List (List Byte)}
    (hs : step s = .fault .stalledOnInput) (h : s.move (line :: rest) = none) : line = [] := by
  by_contra hl
  rw [move_of_stalled_cons line rest hs, if_neg hl] at h
  cases h

/-- A line that is not empty lifts the stall (R82). -/
theorem move_of_stalled {s : State} {line : List Byte} (rest : List (List Byte))
    (hs : step s = .fault .stalledOnInput) (hl : line ≠ []) :
    s.move (line :: rest) = some (rest, { s with inbuf := line }) := by
  obtain ⟨-, hin, -⟩ := stalledOnInput_cases hs
  rw [move_of_stalled_cons line rest hs, if_neg hl, hin, List.nil_append]

/-! ## Steps alone -/

/-- A run of steps alone goes on to its length, or stops before it, in a state whose step is that stop. -/
theorem run_next_or_stops (n : Nat) (s : State) :
    (∃ t, Host.Core.run core n s = .next t) ∨
      ∃ k t f, k < n ∧ Host.Core.run core k s = .next t ∧ Host.Core.run core n s = .fault f ∧ step t = .fault f := by
  induction n generalizing s with
  | zero => exact .inl ⟨s, rfl⟩
  | succ n ih =>
    cases hs : step s with
    | refused r => exact absurd hs (step_not_refused s r)
    | fault f => exact .inr ⟨0, s, f, Nat.succ_pos n, rfl, run_fault n hs, hs⟩
    | next u =>
      obtain ⟨t, ht⟩ | ⟨k, t, f, hk, hrun, hstop, hf⟩ := ih u
      · exact .inl ⟨t, (run_next n hs).trans ht⟩
      · exact .inr ⟨k + 1, t, f, Nat.succ_lt_succ hk, (run_next k hs).trans hrun, (run_next n hs).trans hstop, hf⟩

end Sys2Proof.Machine

/-! ## The statement -/

namespace Sys2Proof.Proofs

open Sys2Proof.Machine Sys2Proof.Claim

/-- Settles O20: a run that does not go on for ever comes to a first state without a move, and stays there; what it is
there is read off its run state. -/
theorem runEndsInOneOfItsFates : Obligations.RunEndsInOneOfItsFates := by
  intro lines s hs
  have hinv (n : Nat) : (s.runHost n lines).2.Inv :=
    runHost_keeps (fun _ _ => step_inv) (fun _ _ _ => refill_inv) n lines hs
  refine ⟨hinv, ?_, fun n => ?_⟩
  · by_cases hmoves : ∀ n, (s.runHost n lines).2.move (s.runHost n lines).1 ≠ none
    · refine .inl fun n => ?_
      obtain ⟨p, hp⟩ := Option.ne_none_iff_exists'.1 (hmoves n)
      exact ⟨fate_of_move hp, safeFor_of_moves fun k _ => hmoves k, p, hp, runHost_succ hp⟩
    · obtain ⟨n, hend⟩ := not_forall_not.1 hmoves
      refine .inr ⟨n, _, _, fun m hm => runHost_of_le hm hend, no_step_of_no_move hend, ?_⟩
      obtain hr | hr | hr := runState_cases (s.runHost n lines).2
      · have hnf : (s.runHost n lines).2.runState ≠ .faulted := by simp [hr]
        exact .inl ⟨fate_of_halted _ hr, hr, (hinv n).noRecord hnf, safeFor_of_end hend hnf⟩
      · obtain ⟨c, hrecord⟩ := (hinv n).record hr
        exact .inr (.inl ⟨fate_of_faulted _ hr, hr, fun hsafe => hsafe n le_rfl hr, _, hrecord, rfl⟩)
      · have hnf : (s.runHost n lines).2.runState ≠ .faulted := by simp [hr]
        have hstall := stalledOnInput_of_no_step hr (no_step_of_no_move hend)
        obtain ⟨-, hin, -⟩ := stalledOnInput_cases hstall
        refine .inr (.inr ⟨fate_of_stalled hr hend, hr, (stalled_iff _).2 hstall, hin, fun line rest hleft => ?_,
          safeFor_of_end hend hnf, fun line rest hl => move_of_stalled rest hstall hl⟩)
        exact next_line_empty hstall (hleft ▸ hend)
  · obtain ⟨t, ht⟩ | ⟨k, t, f, hk, hrun, hstop, hf⟩ := run_next_or_stops n s
    · exact .inl ⟨t, ht, runHost_of_run lines ht⟩
    · exact .inr ⟨k, t, f, hk, hrun, runHost_of_run lines hrun, hstop, hf⟩

end Sys2Proof.Proofs

/-! # The spec's invariant INV (spec/10_state.md section 9)

The two components INV speaks of change by one word at most, so a step keeps INV exactly when the word it writes is one
that INV allows. -/

namespace Sys2Proof.Machine

/-! ## Where an instruction ends -/

/-- The words of a decoded instruction lie within the memory (R49, R53). -/
theorem State.DecodesTo.end_le {s : State} {i : Instr} (h : s.DecodesTo i) : s.pc.toNat + i.len ≤ 32768 := by
  have hlen := length_encode i
  obtain ⟨-, hwords⟩ := (s.decodesTo_iff i).1 h
  have hpos : 0 < i.len := by cases i <;> exact Nat.succ_pos _
  obtain ⟨hlast, -⟩ := hwords (i.len - 1) (by omega)
  omega

/-! ## INV and the words of the state -/

/-- INV speaks of the registers and the stack alone. -/
theorem State.ValueInv.of_eq {s t : State} (h : s.ValueInv) (hx : t.x = s.x) (hst : t.stack = s.stack) :
    t.ValueInv where
  regs j := State.reg_eq_of_x_eq hx j ▸ h.regs j
  stack := hst ▸ h.stack

/-- A register write keeps INV exactly when the word is one of its words. -/
theorem State.ValueInv.setReg_advance_iff {s : State} (h : s.ValueInv) (r : RegIx) (v : Word) (n : Nat) :
    ((s.setReg r v).advance n).ValueInv ↔ v.toNat ≤ 32767 := by
  refine ⟨fun ht => by simpa using ht.regs r, fun hv => ⟨fun j => ?_, h.stack⟩⟩
  by_cases hj : j = r
  · simpa [hj] using hv
  · simpa [hj] using h.regs j

/-- A push of one of its words keeps INV. -/
theorem State.ValueInv.of_push {s t : State} (h : s.ValueInv) {v : Word} (hx : t.x = s.x)
    (hst : t.stack = s.stack ++ [v]) (hv : v.toNat ≤ 32767) : t.ValueInv where
  regs j := State.reg_eq_of_x_eq hx j ▸ h.regs j
  stack := by
    rw [hst, List.forall_mem_append, List.forall_mem_singleton]
    exact ⟨h.stack, hv⟩

/-- A stack that INV allows has a top entry and a rest that INV allows. -/
theorem State.ValueInv.of_concat {s : State} (h : s.ValueInv) {l : List Word} {v : Word} (hs : s.stack = l ++ [v]) :
    ({ s with stack := l } : State).ValueInv ∧ v.toNat ≤ 32767 := by
  have hst := h.stack
  rw [hs, List.forall_mem_append, List.forall_mem_singleton] at hst
  exact ⟨⟨h.regs, hst.1⟩, hst.2⟩

/-- While INV holds, the effective value of an operand that some word encodes is at most 32767 (R23). -/
theorem State.ValueInv.val_le {s : State} (h : s.ValueInv) {a : Src} (ha : a.wf = true) : (s.val a).toNat ≤ 32767 := by
  cases a with
  | lit v => exact Nat.le_of_lt_succ (of_decide_eq_true ha)
  | reg i => exact h.regs i

/-! ## The words the instructions compute -/

theorem truthWord_le (b : Bool) : (truthWord b).toNat ≤ 32767 := by
  cases b <;> decide

/-- The bitwise and only clears bits, so it stays within its first word. -/
theorem andWord_le {a : Word} (b : Word) (ha : a.toNat ≤ 32767) : (andWord a b).toNat ≤ 32767 := by
  rw [andWord, BitVec.toNat_and]
  exact Nat.and_le_left.trans ha

theorem orWord_le {a b : Word} (ha : a.toNat ≤ 32767) (hb : b.toNat ≤ 32767) : (orWord a b).toNat ≤ 32767 := by
  rw [orWord, BitVec.toNat_or]
  exact Nat.le_of_lt_succ (Nat.or_lt_two_pow (n := 15) (Nat.lt_succ_of_le ha) (Nat.lt_succ_of_le hb))

theorem notWord_le {a : Word} (ha : a.toNat ≤ 32767) : (notWord a).toNat ≤ 32767 := by
  rw [notWord, BitVec.toNat_xor]
  exact Nat.le_of_lt_succ (Nat.xor_lt_two_pow (n := 15) (Nat.lt_succ_of_le ha) (by decide))

theorem modWord_toNat (a b : Word) : (modWord a b).toNat = a.toNat % b.toNat := by
  rw [modWord, BitVec.toNat_ofNat, Nat.mod_eq_of_lt ((Nat.mod_le _ _).trans_lt a.isLt)]

theorem modWord_le {a : Word} (b : Word) (ha : a.toNat ≤ 32767) : (modWord a b).toNat ≤ 32767 := by
  rw [modWord_toNat]
  exact (Nat.mod_le _ _).trans ha

/-- While INV holds, every result of an instruction without a check of its own is one of its words (R23). -/
theorem State.ValueInv.plainResult_le {s : State} (h : s.ValueInv) {i : Instr} {v : Word} (hwf : i.wf = true)
    (hv : plainResult? s i = some v) : v.toNat ≤ 32767 := by
  cases i <;> simp only [plainResult?, reduceCtorEq, Option.some.injEq] at hv <;> subst hv
  case set => exact h.val_le hwf
  case eq | gt => exact truthWord_le _
  case add => rw [addWord_toNat]; omega
  case mult => rw [multWord_toNat]; omega
  case and => exact andWord_le _ (h.val_le (Bool.and_eq_true_iff.1 hwf).1)
  case or =>
    obtain ⟨ha, hb⟩ := Bool.and_eq_true_iff.1 hwf
    exact orWord_le (h.val_le ha) (h.val_le hb)
  case not => exact notWord_le (h.val_le hwf)

/-! ## What an effect does to INV -/

/-- An effect keeps INV, or is an `rmem` of a word above 32767 or a `call` whose return address is (R23). -/
theorem Effect.valueInv_cases {i : Instr} {s t : State} (h : Effect i s t) (hs : s.ValueInv) (hwf : i.wf = true) :
    t.ValueInv ∨
    (∃ d r a, i = .rmem d a ∧ dest? d = some r ∧ 32767 < (s.mem.readWord (s.val a).toNat).toNat) ∨
    (∃ v, i = .call v ∧ 32767 < (s.pc + 2#16).toNat) := by
  cases h with
  | rmem hd ha =>
    obtain hw | hw := Nat.lt_or_ge 32767 (s.mem.readWord (s.val _).toNat).toNat
    · exact .inr (.inl ⟨_, _, _, rfl, hd, hw⟩)
    · exact .inl ((hs.setReg_advance_iff _ _ _).2 hw)
  | call =>
    obtain hw | hw := Nat.lt_or_ge 32767 (s.pc + 2#16).toNat
    · exact .inr (.inr ⟨_, rfl, hw⟩)
    · exact .inl (hs.of_push rfl rfl hw)
  | plain hi hd hv => exact .inl ((hs.setReg_advance_iff _ _ _).2 (hs.plainResult_le hwf hv))
  | mod hd hb =>
    exact .inl ((hs.setReg_advance_iff _ _ _).2 (modWord_le _ (hs.val_le (Bool.and_eq_true_iff.1 hwf).1)))
  | push => exact .inl (hs.of_push rfl rfl (hs.val_le hwf))
  | pop hd hst =>
    obtain ⟨hrest, hv⟩ := hs.of_concat hst
    exact .inl ((hrest.setReg_advance_iff _ _ _).2 hv)
  | ret hst => exact .inl ((hs.of_concat hst).1.of_eq rfl rfl)
  | @inp d r b bs _ hd hin =>
    have hbyte : (b.setWidth 16).toNat ≤ 32767 := by
      have := b.isLt
      rw [BitVec.toNat_setWidth_of_le (by decide)]
      omega
    have hrest : ({ s with inbuf := bs } : State).ValueInv := hs.of_eq rfl rfl
    exact .inl ((hrest.setReg_advance_iff _ _ _).2 hbyte)
  | _ => exact .inl (hs.of_eq rfl rfl)

/-- A return address is above 32767 only for the last `call` that fits in the memory, at 32766 (R77). -/
theorem State.DecodesTo.returnAddress_iff {s : State} {v : Src} (h : s.DecodesTo (.call v)) :
    32767 < (s.pc + 2#16).toNat ↔ s.pc.toNat = 32766 := by
  have hend : s.pc.toNat + 2 ≤ 32768 := h.end_le
  have hadd : (s.pc + BitVec.ofNat 16 2).toNat = s.pc.toNat + 2 := advance_toNat h.pc_lt (by decide)
  omega

/-! ## What an effect does to the pc -/

/-- An effect advances past the instruction, takes the pc from an operand or from the stack, or leaves it (R13). -/
theorem Effect.pc_cases {i : Instr} {s t : State} (h : Effect i s t) (hwf : i.wf = true) :
    t.pc = s.pc + BitVec.ofNat 16 i.len ∨ (∃ v : Src, v.wf = true ∧ t.pc = s.val v) ∨ t.pc ∈ s.stack ∨ t.pc = s.pc := by
  cases h with
  | jmp | call => exact .inr (.inl ⟨_, hwf, rfl⟩)
  | jtTaken | jfTaken => exact .inr (.inl ⟨_, (Bool.and_eq_true_iff.1 hwf).2, rfl⟩)
  | ret hst => exact .inr (.inr (.inl (by simp [hst])))
  | halt => exact .inr (.inr (.inr rfl))
  | _ => exact .inl rfl

end Sys2Proof.Machine

/-! ## The statements -/

namespace Sys2Proof.Proofs

open Sys2Proof.Machine Sys2Proof.Claim

/-- Settles O25: of the effects only those of `rmem` and `call` can write a word above 32767, and a fault writes none. -/
theorem valueInvBrokenExactly : Obligations.ValueInvBrokenExactly := by
  intro s t hs hstep
  have hr := step_running hstep
  constructor
  · intro hbroken
    obtain ⟨c, rfl⟩ | ⟨i, hi, heff⟩ := step_raise_or_effect hstep
    · exact (hbroken (hs.of_eq rfl rfl)).elim
    · obtain hkeeps | ⟨d, r, a, rfl, hd, hw⟩ | ⟨v, rfl, hw⟩ := heff.valueInv_cases hs hi.wf
      · exact absurd hkeeps hbroken
      · exact .inl ⟨d, a, hi, (isReg_iff d).2 ⟨r, hd⟩, hw⟩
      · exact .inr ⟨hi.returnAddress_iff.1 hw, v, hi⟩
  · rintro (⟨d, a, hi, hd, hw⟩ | ⟨hpc, v, hi⟩) hkeeps
    · obtain ⟨r, hd⟩ := (isReg_iff d).1 hd
      have heff := Effect.rmem hd (Nat.lt_succ_of_le (hs.val_le (a := a) hi.wf))
      cases hstep.symm.trans (step_of_effect hr hi heff)
      exact absurd ((hs.setReg_advance_iff _ _ _).1 hkeeps) (Nat.not_le.2 hw)
    · cases hstep.symm.trans (step_of_effect hr hi .call)
      exact absurd (hkeeps.stack (s.pc + 2#16) (by simp)) (Nat.not_le.2 (hi.returnAddress_iff.2 hpc))

/-- Settles O26: the address of `rmem` and `wmem` is an effective value, which INV keeps in range; and a pc that is no
advance is an effective value, a word of the stack, or the pc before. -/
theorem valueInvKeepsAddressesInRange : Obligations.ValueInvKeepsAddressesInRange := by
  refine fun s hs => ⟨fun w v hv => hs.val_le (srcOf?_some hv).1, fun hr => ?_, fun t hstep hpc hnext => ?_⟩
  · rw [(memRangeRaisedExactly s hr).1]
    constructor
    · rintro (hpc | hbeyond | ⟨d, a, hi, -, ha⟩ | ⟨a, b, hi, ha⟩)
      · exact .inl hpc
      · exact .inr hbeyond
      · exact absurd (hs.val_le hi.wf) (Nat.not_le.2 ha)
      · exact absurd (hs.val_le (Bool.and_eq_true_iff.1 hi.wf).1) (Nat.not_le.2 ha)
    · exact fun h => h.imp_right .inl
  · obtain ⟨c, rfl⟩ | ⟨i, hi, heff⟩ := step_raise_or_effect hstep
    · exact absurd hpc (Nat.not_le.2 hnext)
    · obtain hadv | ⟨v, hwf, hval⟩ | hstack | hsame := heff.pc_cases hi.wf
      · have hend := hi.end_le
        rw [hadv, advance_toNat hi.pc_lt i.len_le] at hnext ⊢
        exact ⟨by omega, i, hi, by omega⟩
      · exact absurd (hval ▸ hs.val_le hwf) (Nat.not_le.2 hnext)
      · exact absurd (hs.stack _ hstack) (Nat.not_le.2 hnext)
      · exact absurd (hsame ▸ hpc) (Nat.not_le.2 hnext)

end Sys2Proof.Proofs

/-! # `push` and `call`, `halt` and `noop` from the words in memory (spec/41, 46, 48)

The instructions that are left: two with the role `value`, which always complete, and two that their opcode word alone
decodes. -/

/-! ## The rows of the table -/

namespace Sys2Proof

theorem decode_push {op : Word} (h : op.toNat = 2) (ws : List Word) : decode (op :: ws) = rolesV .push ws := by
  simp [decode, h]

theorem decode_call {op : Word} (h : op.toNat = 17) (ws : List Word) : decode (op :: ws) = rolesV .call ws := by
  simp [decode, h]

end Sys2Proof

/-! ## The instructions' own part -/

namespace Sys2Proof.Machine

/-- `push` in the numbers of the statements: on the unbounded stack it has no condition (R61). -/
theorem exec_push (v : Src) (s : State) :
    exec (.push v) s =
      .next { s with stack := s.stack ++ [s.val v], pc := BitVec.ofNat 16 (s.pc.toNat + 2) } := by
  rw [exec_of_effect .push, State.advance_eq]

/-- `call` in the numbers of the statements: the return address is the word of the natural sum at any pc (R77). -/
theorem exec_call (v : Src) (s : State) :
    exec (.call v) s =
      .next { s with stack := s.stack ++ [BitVec.ofNat 16 (s.pc.toNat + 2)], pc := s.val v } := by
  have hret : s.pc + 2#16 = BitVec.ofNat 16 (s.pc.toNat + 2) := by simp [BitVec.ofNat_add]
  rw [exec_of_effect .call, hret, State.setPc]

end Sys2Proof.Machine

/-! ## The statements -/

namespace Sys2Proof.Proofs

open Sys2Proof.Machine Sys2Proof.Claim

/-- Settles O39: `push` has the role `value`, and its effect has no condition. -/
theorem pushStep : Obligations.PushStep := fun s hat =>
  hat.step_eq_stepV decode_push fun v => exec_push v s

/-- Settles O49: `call` has the role `value`, and its effect has no condition. -/
theorem callStep : Obligations.CallStep := fun s hat =>
  hat.step_eq_stepV decode_call fun v => exec_call v s

/-- Settles O53: the opcode words 0 and 21 are whole instructions; `halt` leaves a core that takes no step. -/
theorem haltNoopSteps : Obligations.HaltNoopSteps := by
  refine fun s => ⟨fun hat => ⟨?_, fun t h => ?_⟩, fun hat => ?_⟩
  · exact (hat.step_opcode decode_halt).trans (exec_of_effect .halt)
  · cases step_running h
  · rw [hat.step_opcode decode_noop, exec_of_effect .noop, State.advance_eq]

end Sys2Proof.Proofs

/-! # The meanings complete

Each instruction has its effect in every state that meets the effect's condition; the frames are read off the effect. -/

namespace Sys2Proof.Machine

open Sys2Proof.Claim

/-! ## Completion from an effect -/

/-- The frame of the statements: whatever the registers and the pc become, the rest is as it was. -/
theorem sameButRegsPc_update (s : State) (x : Vector Word 8) (p : Word) :
    SameButRegsPc s { s with x := x, pc := p } :=
  ⟨rfl, rfl, fun _ => rfl, rfl, rfl, rfl, rfl⟩

/-- An instruction whose effect is a register write and the advance completes writing its word. -/
theorem Effect.completesWriting {i : Instr} {s : State} {r : RegIx} {v : Word} {n : Nat} {result : Word → Prop}
    (h : Effect i s ((s.setReg r v).advance n)) (hv : result v) : CompletesWriting (exec i s) s r n result := by
  refine ⟨_, exec_of_effect h, ?_, fun j hj => ?_, rfl, sameButRegsPc_update s _ _⟩
  · rwa [State.reg_advance, State.reg_setReg_same]
  · exact State.reg_setReg_other s v hj

/-- An instruction without a check of its own completes for a register destination, writing its result. -/
theorem plain_completesWriting {i : Instr} {d : Word} {r : RegIx} {v : Word} {s : State} {result : Word → Prop}
    (hi : i.destWord? = some d) (hd : d.toNat = 32768 + r.val) (hp : plainResult? s i = some v) (hv : result v) :
    CompletesWriting (exec i s) s r i.len result :=
  (Effect.plain hi (dest?_register hd) hp).completesWriting hv

/-- An instruction whose effect is a write of the pc completes there. -/
theorem Effect.completesAtPc {i : Instr} {s : State} {target : Word} (h : Effect i s (s.setPc target)) :
    CompletesAtPc (exec i s) s target :=
  ⟨_, exec_of_effect h, rfl, fun _ => rfl, sameButRegsPc_update s _ _⟩

/-! ## The results -/

theorem truthWord_toNat (c : Prop) [Decidable c] : (truthWord (decide c)).toNat = if c then 1 else 0 := by
  by_cases hc : c <;> simp [truthWord, hc]

theorem andWord_getLsbD (a b : Word) (k : Nat) : (andWord a b).getLsbD k = (a.getLsbD k && b.getLsbD k) :=
  BitVec.getLsbD_and

theorem orWord_getLsbD (a b : Word) (k : Nat) : (orWord a b).getLsbD k = (a.getLsbD k || b.getLsbD k) :=
  BitVec.getLsbD_or

/-- The mask of `not` has the bits 0 to 14 (R74). -/
theorem mask_getLsbD (k : Nat) : (0x7FFF#16).getLsbD k = decide (k < 15) := by
  rw [BitVec.getLsbD_ofNat, Nat.testBit_two_pow_sub_one (n := 15), ← Bool.decide_and, decide_eq_decide]
  omega

theorem notWord_getLsbD (a : Word) (k : Nat) : (notWord a).getLsbD k = (a.getLsbD k ^^ decide (k < 15)) := by
  rw [notWord, BitVec.getLsbD_xor, mask_getLsbD]

end Sys2Proof.Machine

/-! ## The statements -/

namespace Sys2Proof.Proofs

open Sys2Proof.Machine Sys2Proof.Claim

/-- Settles O54: eight instructions have their effect for every register destination, `mod` and `rmem` under their
operand's condition; the results are those of the result words. -/
theorem registerWritersComplete : Obligations.RegisterWritersComplete := by
  intro s d r a b hd
  have hreg := dest?_register hd
  refine ⟨?set, ?eq, ?gt, ?add, ?mult, fun hb => ?mod, ?and, ?or, ?not, fun ha => ?rmem⟩
  case set => exact plain_completesWriting (i := .set d a) rfl hd rfl rfl
  case eq =>
    refine plain_completesWriting (i := .eq d a b) rfl hd rfl ?_
    simp only [truthWord_toNat, BitVec.toNat_inj]
  case gt => exact plain_completesWriting (i := .gt d a b) rfl hd rfl (truthWord_toNat _)
  case add => exact plain_completesWriting (i := .add d a b) rfl hd rfl (addWord_toNat _ _)
  case mult => exact plain_completesWriting (i := .mult d a b) rfl hd rfl (multWord_toNat _ _)
  case mod => exact (Effect.mod hreg hb).completesWriting (modWord_toNat _ _)
  case and => exact plain_completesWriting (i := .and d a b) rfl hd rfl (andWord_getLsbD _ _)
  case or => exact plain_completesWriting (i := .or d a b) rfl hd rfl (orWord_getLsbD _ _)
  case not =>
    refine plain_completesWriting (i := .not d a) rfl hd rfl ⟨fun k hk => ?_, ?_⟩
    · rw [notWord_getLsbD, decide_eq_true hk, Bool.xor_true]
    · exact (notWord_getLsbD _ 15).trans (Bool.xor_false _)
  case rmem => exact (Effect.rmem hreg (Nat.lt_succ_of_le ha)).completesWriting rfl

/-- Settles O55: the effect of `wmem` is one `writeWord` and the advance. -/
theorem wmemCompletes : Obligations.WmemCompletes := by
  intro s a b ha
  have hrange : (s.val a).toNat < 32768 := Nat.lt_succ_of_le ha
  refine ⟨_, exec_of_effect (.wmem hrange), fun hwf => ?_, fun k hlo hhi => Memory.readByte_writeWord_other _ _ hlo hhi,
    fun _ => rfl, rfl, rfl, rfl, rfl, rfl, rfl⟩
  rw [State.memRead?_in hrange]
  exact congrArg some (Memory.readWord_writeWord_same _ hwf hrange)

/-- Settles O56: the effects of `push` and `call` have no condition, and a top entry is the one of `ret` and, for a
register destination, of `pop`. -/
theorem stackInstructionsComplete : Obligations.StackInstructionsComplete := by
  refine fun s v => ⟨?push, ?call, fun l w hs => ⟨?ret, fun d r hd => ?pop⟩⟩
  case push =>
    exact ⟨_, exec_of_effect .push, rfl, rfl, fun _ => rfl, sameButRegsPc_update _ _ _⟩
  case call =>
    exact ⟨_, exec_of_effect .call, rfl, rfl, fun _ => rfl, sameButRegsPc_update _ _ _⟩
  case ret =>
    exact ⟨_, exec_of_effect (.ret hs), rfl, rfl, fun _ => rfl, sameButRegsPc_update _ _ _⟩
  case pop =>
    refine ⟨_, exec_of_effect (.pop (dest?_register hd) hs), rfl, ?_, fun j hj => ?_, rfl,
      sameButRegsPc_update _ _ _⟩
    · rw [State.reg_advance, State.reg_setReg_same]
    · exact State.reg_setReg_other _ w hj

/-- Settles O58: the effect of `out` has no condition, and a head of the buffer is the one of `in`. -/
theorem consoleInstructionsComplete : Obligations.ConsoleInstructionsComplete := by
  refine fun s => ⟨fun a => ?_, fun d r b bs hd hin => ?_⟩
  · exact ⟨_, (s.val a).setWidth 8, exec_of_effect .out, by simp, rfl, rfl, fun _ => rfl,
      sameButRegsPc_update _ _ _⟩
  · refine ⟨_, exec_of_effect (.inp (dest?_register hd) hin), ?_, fun j hj => ?_, rfl, rfl,
      sameButRegsPc_update _ _ _⟩
    · rw [State.reg_advance, State.reg_setReg_same, BitVec.toNat_setWidth_of_le (by decide)]
    · exact State.reg_setReg_other _ _ hj

/-- Settles O57: a jump writes the pc alone, with its target or with the advance as the condition decides. -/
theorem jumpsComplete : Obligations.JumpsComplete := by
  refine fun s a v => ⟨Effect.jmp.completesAtPc, ?_⟩
  by_cases ha : (s.val a).toNat = 0
  · simp only [ha, ne_eq, not_true_eq_false, if_false]
    exact ⟨(Effect.jtNot ha).completesAtPc, (Effect.jfTaken ha).completesAtPc⟩
  · simp only [ha, ne_eq, not_false_eq_true, if_true]
    exact ⟨(Effect.jtTaken ha).completesAtPc, (Effect.jfNot ha).completesAtPc⟩

/-- Settles O59: the effects of `halt` and `noop` have no condition. -/
theorem haltNoopComplete : Obligations.HaltNoopComplete := fun _ =>
  ⟨⟨_, exec_of_effect .halt, rfl, rfl, fun _ => rfl, sameButRegsPc_update _ _ _⟩,
    Effect.noop.completesAtPc⟩

end Sys2Proof.Proofs
